-- ==== Sys2Proof/Word.lean ====
section
/-! DEFINITION. The plain types of the block: a level, a segment pattern, the four display positions and the nine lines. -/

namespace Sys2Proof

/-- The level of a line, 0 or 1 (`true` is 1). R8, R42. -/
abbrev Level := Bool

/-- A segment pattern: eight bits, bit 7 the most significant (R7, R63). -/
abbrev Pattern := BitVec 8

/-- The two bit orders (R61). -/
inductive BitOrder where
  | msbFirst
  | lsbFirst
deriving DecidableEq, Repr

/-- The four display positions, ones first (R16: index 0 is the ones position, 3 the thousands). -/
inductive Position where
  | ones
  | tens
  | hundreds
  | thousands
deriving DecidableEq, Repr

/-- The four positions in the order a refresh visits them (R45). -/
def Position.all : List Position := [.ones, .tens, .hundreds, .thousands]

/-- One value for each display position. -/
structure PerPosition (α : Type) where
  ones : α
  tens : α
  hundreds : α
  thousands : α
deriving DecidableEq, Repr

/-- The value at one position. -/
def PerPosition.get {α : Type} (v : PerPosition α) : Position → α
  | .ones => v.ones
  | .tens => v.tens
  | .hundreds => v.hundreds
  | .thousands => v.thousands

/-- The same values with one position replaced. -/
def PerPosition.set {α : Type} (v : PerPosition α) (i : Position) (a : α) : PerPosition α :=
  match i with
  | .ones => { v with ones := a }
  | .tens => { v with tens := a }
  | .hundreds => { v with hundreds := a }
  | .thousands => { v with thousands := a }

/-- The same value at every position. -/
def PerPosition.const {α : Type} (a : α) : PerPosition α := ⟨a, a, a, a⟩

/-- The seven output lines (R42). -/
inductive OutLine where
  | data
  | clock
  | latch
  | digitEn (i : Position)
deriving DecidableEq, Repr

/-- The two input lines (R42). -/
inductive InLine where
  | btnCount
  | btnReset
deriving DecidableEq, Repr

/-- The nine lines of the hardware boundary (R42). -/
inductive Line where
  | out (l : OutLine)
  | inp (l : InLine)
deriving DecidableEq, Repr

/-- One number for each of the nine lines: a pin assignment (R42). -/
structure PinMap where
  digitEn : PerPosition Nat
  data : Nat
  clock : Nat
  latch : Nat
  btnCount : Nat
  btnReset : Nat
deriving DecidableEq, Repr

end Sys2Proof
end

