-- ==== Sys2Proof/Config.lean ====
section
/-! DEFINITION. The configuration of the block (R6) and the free values. -/

namespace Sys2Proof

/-- The numeric codes of the two bit orders, `BO_MSB_FIRST` and `BO_LSB_FIRST` (R61, U18). The spec wants them
distinct; `OrderCodes.distinct` says so, and a statement that needs it has it as a premise. -/
structure OrderCodes where
  msbFirst : Nat
  lsbFirst : Nat
deriving DecidableEq, Repr

/-- The two codes differ (92_eei_decisions.md, open parameters: two distinct codes). -/
abbrev OrderCodes.distinct (c : OrderCodes) : Prop := c.msbFirst ≠ c.lsbFirst

/-- `RADIX` of the digit decomposition (R6, R111): one of 1 to 10, so that every digit has an entry in the table of
ten (R19, R41). `pred` is one less. -/
structure Radix where
  pred : Fin 10
deriving DecidableEq, Repr

/-- The radix as a number. -/
def Radix.toNat (r : Radix) : Nat := r.pred.val + 1

/-- `NUM_DIGITS`, the display positions in use (R6, R45): one of 1 to 4, the hardware boundary having four digit lines
(R42).  `pred` is one less (DESIGN CHOICE: the range, log entry 3). -/
structure DigitCount where
  pred : Fin 4
deriving DecidableEq, Repr

/-- `NUM_DIGITS` as a number. -/
def DigitCount.toNat (n : DigitCount) : Nat := n.pred.val + 1

/-- `PATTERN_WIDTH`, the bits of a segment pattern and of a serial frame (R6, R82): one of 1 to 8, the external
register having eight stages (R24).  `pred` is one less (DESIGN CHOICE: the range, log entry 3). -/
structure PatternWidth where
  pred : Fin 8
deriving DecidableEq, Repr

/-- `PATTERN_WIDTH` as a number. -/
def PatternWidth.toNat (w : PatternWidth) : Nat := w.pred.val + 1

/-- The width of a counter register (R6, D8).  The spec gives the one value; a finite width is what another model may
state, and then it is an invention (D8, log entry 3). -/
inductive CounterWidth where
  | unbounded
deriving DecidableEq, Repr

/-- The configuration of the block (R6).  It is a parameter of the step, not a register (R29): a state carries it
read-only (log entry 3), so that a statement about every state holds for every value of it.  The values that this
hardware takes are `Machine.defaultParams`. -/
structure Params where
  /-- `NUM_DIGITS`: how many positions a `RENDER` visits, ones first (R6, R112).  What fewer than four do is the model's
  own (DESIGN CHOICE, log entry 3). -/
  numDigits : DigitCount
  /-- `PATTERN_WIDTH`: how many bit cells a frame has (R6, R82).  That a narrower pattern is the low bits of a `Pattern`
  is the model's own (DESIGN CHOICE, log entry 3). -/
  patternWidth : PatternWidth
  /-- `BO_MSB_FIRST` and `BO_LSB_FIRST` (R61, D2, U18). -/
  codes : OrderCodes
  /-- `DISPLAY_BIT_ORDER`: the order the loop passes to every `RENDER` (R6, R130). -/
  displayBitOrder : BitOrder
  /-- `REPEAT_THRESHOLD`, in iterations (R6, R136). -/
  repeatThreshold : Nat
  /-- `RADIX` (R6, R111). -/
  radix : Radix
  /-- The width of `COUNT` (R6, R11, D8). -/
  countWidth : CounterWidth
  /-- The width of `PD` (R6, R12, D8). -/
  pdWidth : CounterWidth
  /-- `T_ILLUM`, a natural number of microseconds (DESIGN CHOICE: the unit and the grain, log entry 4). -/
  tIllum : Nat
  /-- `T_PULSE_MIN`: what the external register needs of a pulse.  The block inserts no delay for it (R203, D15), so no
  operation reads it (log entry 8).  The spec names a duration and no unit; that it is a natural number of microseconds
  is the model's own (DESIGN CHOICE: the unit and the grain, log entry 4). -/
  tPulseMin : Nat
  /-- `SEG_TABLE[0..9]` (R101). -/
  seg0 : Pattern
  seg1 : Pattern
  seg2 : Pattern
  seg3 : Pattern
  seg4 : Pattern
  seg5 : Pattern
  seg6 : Pattern
  seg7 : Pattern
  seg8 : Pattern
  seg9 : Pattern
  /-- `PIN_MAP`: no operation reads it (R42, D18).  That a pin is a natural number is the model's own (log entry 17). -/
  pinMap : PinMap
deriving DecidableEq, Repr

/-- Power-on contents of the external register's shift stage: arbitrary (R24, R28, D14, U7). -/
opaque Config.powerOnSr : Pattern

/-- Power-on contents of the external register's output stage: arbitrary (R24, R28, D14, U7). -/
opaque Config.powerOnQ : Pattern

/-- Contents of the sampled copies `CB` and `RB` at power-on: any value, written before it is read (R28, U16). -/
opaque Config.powerOnSample : InLine → Level

/-- Contents of `DIG[0..3]` at power-on: any value, written before it is read (R28, U16). -/
opaque Config.powerOnDigit : Position → Fin 10

/-- The level of the count button at a sampling instant that no listed stimulus covers (R17, D23, U8). -/
opaque Config.freeBtnCount : Nat → Level

/-- The level of the reset button at a sampling instant that no listed stimulus covers (R17, D23, U8). -/
opaque Config.freeBtnReset : Nat → Level

/-- Which physical pin carries each line: OPEN, with no default (R42, D18, U11; log entry 17). -/
opaque Config.pinOf : Line → Nat

end Sys2Proof
end

