-- ==== Sys2Proof/Syntax.lean ====
section
/-! DEFINITION. The operations of the block as syntax: one constructor per row of spec/opcode_table.json, the
operand types, and the decode words the rows are read from. -/

namespace Sys2Proof

/-- The four codes of the state-machine register (R13, R65). -/
inductive FsmState where
  | idle
  | counting
  | resetting
  /-- Code 3: reserved, not reachable from reset; an iteration begun in it is refused (R73). -/
  | reserved
deriving DecidableEq, Repr

/-- The operations (R60) and the transitions of one iteration (R130): a row of the opcode map (R71) each.
Operands that a row does not examine are kept, so that no bit of its word is lost. -/
inductive Instr where
  /-- `SHIFTOUT MSB_FIRST, p` (R83). -/
  | shiftoutMsb (p : Pattern)
  /-- `SHIFTOUT LSB_FIRST, p` (R84). -/
  | shiftoutLsb (p : Pattern)
  /-- `SHIFTOUT bo, p` with a code `bo` of neither order; any code can be presented (R61, R85). -/
  | shiftoutBadorder (bo : Nat) (p : Pattern)
  /-- `ENCODE 0` to `ENCODE 9` (R102). -/
  | encode0
  | encode1
  | encode2
  | encode3
  | encode4
  | encode5
  | encode6
  | encode7
  | encode8
  | encode9
  /-- `ENCODE d` with `d` 10 or 11 (R103). -/
  | encodeRangeA (d : Nat)
  /-- `ENCODE d` with `d` in 12..15 (R103). -/
  | encodeRangeB (d : Nat)
  /-- `RENDER n, MSB_FIRST` (R112). -/
  | renderMsb (n : Nat)
  /-- `RENDER n, LSB_FIRST` (R112). -/
  | renderLsb (n : Nat)
  /-- `RENDER n, bo` with a code `bo` of neither order (R116). -/
  | renderBadorder (bo : Nat) (n : Nat)
  /-- `IDLE`, no button (R131). -/
  | iterIdleNone
  /-- `IDLE`, count pressed (R132, R133). -/
  | iterIdleCount (rb : Level)
  /-- `IDLE`, reset pressed alone (R134). -/
  | iterIdleReset
  /-- `COUNTING`, count released (R135). -/
  | iterCountingRelease (rb : Level)
  /-- `COUNTING`, count still held (R136). -/
  | iterCountingHold (rb : Level)
  /-- `RESETTING`, reset released (R137). -/
  | iterResettingRelease (cb : Level)
  /-- `RESETTING`, reset still held (R138). -/
  | iterResettingHold (cb : Level)
  /-- The reserved state code (R73). -/
  | iterBadstate (rb cb : Level)
deriving DecidableEq, Repr

/-- The four formats of a decode word (R69, R70). -/
inductive Format where
  | s10
  | e4
  | r2
  | f4
deriving DecidableEq, Repr

/-- The number of bits of a format (R69, R70). -/
def Format.width : Format → Nat
  | .s10 => 10
  | .e4 => 4
  | .r2 => 2
  | .f4 => 4

/-- A word as it is presented to the decoder: its format and its bits as a number; the operand `n` of `RENDER`
travels beside the word (R64, R70).  The format is not a part of the bits (log entry 6). -/
inductive RawWord where
  | s10 (bits : Nat)
  | e4 (bits : Nat)
  | r2 (bits n : Nat)
  | f4 (bits : Nat)
deriving DecidableEq, Repr

/-- The format of a word. -/
def RawWord.format : RawWord → Format
  | .s10 _ => .s10
  | .e4 _ => .e4
  | .r2 _ _ => .r2
  | .f4 _ => .f4

/-- The bits of a word. -/
def RawWord.bits : RawWord → Nat
  | .s10 b => b
  | .e4 b => b
  | .r2 b _ => b
  | .f4 b => b

/-- Why the decoder rejects a word.  Within its width every word of every format is an instruction (R71). -/
inductive DecodeReject where
  /-- The number has more bits than its format. -/
  | wordTooWide (f : Format) (bits : Nat)
deriving DecidableEq, Repr

end Sys2Proof
end

