-- ==== Sys2Proof/WellFormed.lean ====
section
/-! DEFINITION. Which terms of `Instr` a decode word can carry. -/

namespace Sys2Proof

/-- A code of the most significant bit first order that fits the two-bit field of a word (R61, R70). -/
def OrderCodes.msbFits (c : OrderCodes) : Bool := decide (c.msbFirst < 4)

/-- The same of the other order; a code that both orders had would be read as the first (R61). -/
def OrderCodes.lsbFits (c : OrderCodes) : Bool := decide (c.lsbFirst < 4 ∧ c.lsbFirst ≠ c.msbFirst)

/-- A code of neither order that fits the field (R61, R85). -/
def OrderCodes.badFits (c : OrderCodes) (bo : Nat) : Bool :=
  decide (bo < 4 ∧ bo ≠ c.msbFirst ∧ bo ≠ c.lsbFirst)

/-- The operand checks of the rows, under the codes of the two bit orders: a code fits the two-bit field and is of its
row's kind (R61), an out-of-range digit lies in its row's part of the four-bit field (R62, R71).  Every other operand
is checked by its type. -/
def Instr.wellFormed (c : OrderCodes) : Instr → Bool
  | .shiftoutMsb _ => c.msbFits
  | .shiftoutLsb _ => c.lsbFits
  | .shiftoutBadorder bo _ => c.badFits bo
  | .encode0 => true
  | .encode1 => true
  | .encode2 => true
  | .encode3 => true
  | .encode4 => true
  | .encode5 => true
  | .encode6 => true
  | .encode7 => true
  | .encode8 => true
  | .encode9 => true
  | .encodeRangeA d => d == 10 || d == 11
  | .encodeRangeB d => d == 12 || d == 13 || d == 14 || d == 15
  | .renderMsb _ => c.msbFits
  | .renderLsb _ => c.lsbFits
  | .renderBadorder bo _ => c.badFits bo
  | .iterIdleNone => true
  | .iterIdleCount _ => true
  | .iterIdleReset => true
  | .iterCountingRelease _ => true
  | .iterCountingHold _ => true
  | .iterResettingRelease _ => true
  | .iterResettingHold _ => true
  | .iterBadstate _ _ => true

/-- The row of spec/opcode_table.json a term stands for. -/
def Instr.mnemonic : Instr → String
  | .shiftoutMsb _ => "SHIFTOUT.MSB"
  | .shiftoutLsb _ => "SHIFTOUT.LSB"
  | .shiftoutBadorder _ _ => "SHIFTOUT.BADORDER"
  | .encode0 => "ENCODE.0"
  | .encode1 => "ENCODE.1"
  | .encode2 => "ENCODE.2"
  | .encode3 => "ENCODE.3"
  | .encode4 => "ENCODE.4"
  | .encode5 => "ENCODE.5"
  | .encode6 => "ENCODE.6"
  | .encode7 => "ENCODE.7"
  | .encode8 => "ENCODE.8"
  | .encode9 => "ENCODE.9"
  | .encodeRangeA _ => "ENCODE.RANGE_A"
  | .encodeRangeB _ => "ENCODE.RANGE_B"
  | .renderMsb _ => "RENDER.MSB"
  | .renderLsb _ => "RENDER.LSB"
  | .renderBadorder _ _ => "RENDER.BADORDER"
  | .iterIdleNone => "ITER.IDLE_NONE"
  | .iterIdleCount _ => "ITER.IDLE_COUNT"
  | .iterIdleReset => "ITER.IDLE_RESET"
  | .iterCountingRelease _ => "ITER.COUNTING_RELEASE"
  | .iterCountingHold _ => "ITER.COUNTING_HOLD"
  | .iterResettingRelease _ => "ITER.RESETTING_RELEASE"
  | .iterResettingHold _ => "ITER.RESETTING_HOLD"
  | .iterBadstate _ _ => "ITER.BADSTATE"

end Sys2Proof
end

