-- ==== Sys2Proof/Decode.lean ====
section
/-! DEFINITION. The decoder, total on every word, the encoder written from the same encodings, and the opcode
table's rows as data (R65, R69, R70, R71). -/

namespace Sys2Proof

/-- The two codes of the opcode table: `BO_MSB_FIRST = 0`, `BO_LSB_FIRST = 1` (R61, R71, D2). -/
def tableCodes : OrderCodes := ⟨0, 1⟩

/-- The two-bit code of a state (R65). -/
def FsmState.code : FsmState → Nat
  | .idle => 0
  | .counting => 1
  | .resetting => 2
  | .reserved => 3

/-- The state a two-bit code names (R65). -/
def FsmState.ofCode (c : BitVec 2) : FsmState :=
  if c = 0 then .idle else if c = 1 then .counting else if c = 2 then .resetting else .reserved

/-- Format `S10`: bits 9:8 the bit order, bits 7:0 the pattern (R70). -/
def decodeS10 (c : OrderCodes) (w : BitVec 10) : Instr :=
  if (w.extractLsb' 8 2).toNat = c.msbFirst then .shiftoutMsb (w.extractLsb' 0 8)
  else if (w.extractLsb' 8 2).toNat = c.lsbFirst then .shiftoutLsb (w.extractLsb' 0 8)
  else .shiftoutBadorder (w.extractLsb' 8 2).toNat (w.extractLsb' 0 8)

/-- Format `E4`: bits 3:0 the digit (R70). -/
def decodeE4 (w : BitVec 4) : Instr :=
  match w.toNat with
  | 0 => .encode0
  | 1 => .encode1
  | 2 => .encode2
  | 3 => .encode3
  | 4 => .encode4
  | 5 => .encode5
  | 6 => .encode6
  | 7 => .encode7
  | 8 => .encode8
  | 9 => .encode9
  | d => if d < 12 then .encodeRangeA d else .encodeRangeB d

/-- Format `R2`: bits 1:0 the bit order; `n` beside the word (R70). -/
def decodeR2 (c : OrderCodes) (w : BitVec 2) (n : Nat) : Instr :=
  if w.toNat = c.msbFirst then .renderMsb n
  else if w.toNat = c.lsbFirst then .renderLsb n
  else .renderBadorder w.toNat n

/-- The row of format `F4` selected by a state and the two samples (R71). -/
def selectIteration (st : FsmState) (rb cb : Level) : Instr :=
  match st, rb, cb with
  | .idle, false, false => .iterIdleNone
  | .idle, rb, true => .iterIdleCount rb
  | .idle, true, false => .iterIdleReset
  | .counting, rb, false => .iterCountingRelease rb
  | .counting, rb, true => .iterCountingHold rb
  | .resetting, false, cb => .iterResettingRelease cb
  | .resetting, true, cb => .iterResettingHold cb
  | .reserved, rb, cb => .iterBadstate rb cb

/-- Format `F4`: bits 3:2 the state, bit 1 the reset sample, bit 0 the count sample (R69). -/
def decodeF4 (w : BitVec 4) : Instr :=
  selectIteration (FsmState.ofCode (w.extractLsb' 2 2)) (w.getLsbD 1) (w.getLsbD 0)

/-- The decoder, under the codes of the two bit orders (R61: taken from the configuration).  A number with more bits
than its format is rejected by name (log entry 22); every other word is an instruction (R71). -/
def decode (c : OrderCodes) (r : RawWord) : Except DecodeReject Instr :=
  if r.bits < 2 ^ r.format.width then
    match r with
    | .s10 b => .ok (decodeS10 c (BitVec.ofNat 10 b))
    | .e4 b => .ok (decodeE4 (BitVec.ofNat 4 b))
    | .r2 b n => .ok (decodeR2 c (BitVec.ofNat 2 b) n)
    | .f4 b => .ok (decodeF4 (BitVec.ofNat 4 b))
  else .error (.wordTooWide r.format r.bits)

/-- A level as a number. -/
def levelBit (b : Level) : Nat := if b then 1 else 0

/-- The `F4` word of a state and two samples, as a number (R69). -/
def f4Bits (st : FsmState) (rb cb : Level) : Nat :=
  4 * st.code + 2 * levelBit rb + levelBit cb

/-- The encoder: the word that carries a well-formed instruction, under the codes of the two bit orders (R71). -/
def encode (c : OrderCodes) : Instr → RawWord
  | .shiftoutMsb p => .s10 (0x100 * c.msbFirst + p.toNat)
  | .shiftoutLsb p => .s10 (0x100 * c.lsbFirst + p.toNat)
  | .shiftoutBadorder bo p => .s10 (0x100 * bo + p.toNat)
  | .encode0 => .e4 0
  | .encode1 => .e4 1
  | .encode2 => .e4 2
  | .encode3 => .e4 3
  | .encode4 => .e4 4
  | .encode5 => .e4 5
  | .encode6 => .e4 6
  | .encode7 => .e4 7
  | .encode8 => .e4 8
  | .encode9 => .e4 9
  | .encodeRangeA d => .e4 d
  | .encodeRangeB d => .e4 d
  | .renderMsb n => .r2 c.msbFirst n
  | .renderLsb n => .r2 c.lsbFirst n
  | .renderBadorder bo n => .r2 bo n
  | .iterIdleNone => .f4 (f4Bits .idle false false)
  | .iterIdleCount rb => .f4 (f4Bits .idle rb true)
  | .iterIdleReset => .f4 (f4Bits .idle true false)
  | .iterCountingRelease rb => .f4 (f4Bits .counting rb false)
  | .iterCountingHold rb => .f4 (f4Bits .counting rb true)
  | .iterResettingRelease cb => .f4 (f4Bits .resetting false cb)
  | .iterResettingHold cb => .f4 (f4Bits .resetting true cb)
  | .iterBadstate rb cb => .f4 (f4Bits .reserved rb cb)

/-- One row of spec/opcode_table.json: a word `w` of its format is the row's if `w` masked is `bits`. -/
structure OpcodeRow where
  mnemonic : String
  format : Format
  mask : Nat
  bits : Nat
deriving DecidableEq, Repr

/-- Does the row match the word? -/
def OpcodeRow.hits (row : OpcodeRow) (r : RawWord) : Bool :=
  row.format == r.format && (r.bits &&& row.mask) == row.bits

/-- The rows of the table for `SHIFTOUT` and `RENDER` (R71). -/
def orderRows : List OpcodeRow :=
  [⟨"SHIFTOUT.MSB", .s10, 0x300, 0x000⟩, ⟨"SHIFTOUT.LSB", .s10, 0x300, 0x100⟩,
   ⟨"SHIFTOUT.BADORDER", .s10, 0x200, 0x200⟩,
   ⟨"RENDER.MSB", .r2, 0x3, 0x0⟩, ⟨"RENDER.LSB", .r2, 0x3, 0x1⟩, ⟨"RENDER.BADORDER", .r2, 0x2, 0x2⟩]

/-- The rows of the table for `ENCODE` (R71). -/
def digitRows : List OpcodeRow :=
  [⟨"ENCODE.0", .e4, 0xF, 0x0⟩, ⟨"ENCODE.1", .e4, 0xF, 0x1⟩, ⟨"ENCODE.2", .e4, 0xF, 0x2⟩,
   ⟨"ENCODE.3", .e4, 0xF, 0x3⟩, ⟨"ENCODE.4", .e4, 0xF, 0x4⟩, ⟨"ENCODE.5", .e4, 0xF, 0x5⟩,
   ⟨"ENCODE.6", .e4, 0xF, 0x6⟩, ⟨"ENCODE.7", .e4, 0xF, 0x7⟩, ⟨"ENCODE.8", .e4, 0xF, 0x8⟩,
   ⟨"ENCODE.9", .e4, 0xF, 0x9⟩, ⟨"ENCODE.RANGE_A", .e4, 0xE, 0xA⟩, ⟨"ENCODE.RANGE_B", .e4, 0xC, 0xC⟩]

/-- The rows of the table for `ITERATE` (R71). -/
def iterationRows : List OpcodeRow :=
  [⟨"ITER.IDLE_NONE", .f4, 0xF, 0x0⟩, ⟨"ITER.IDLE_COUNT", .f4, 0xD, 0x1⟩,
   ⟨"ITER.IDLE_RESET", .f4, 0xF, 0x2⟩, ⟨"ITER.COUNTING_RELEASE", .f4, 0xD, 0x4⟩,
   ⟨"ITER.COUNTING_HOLD", .f4, 0xD, 0x5⟩, ⟨"ITER.RESETTING_RELEASE", .f4, 0xE, 0x8⟩,
   ⟨"ITER.RESETTING_HOLD", .f4, 0xE, 0xA⟩, ⟨"ITER.BADSTATE", .f4, 0xC, 0xC⟩]

/-- The 26 rows of spec/opcode_table.json. -/
def opcodeRows : List OpcodeRow := orderRows ++ digitRows ++ iterationRows

/-- The word that a number of `nbits` bits of the opcode table stands for.  The table's numbers carry no format:
2 bits are an `R2` word (with the operand `n` zero), 10 bits (or 16, in whole bytes) an `S10` word, and 4 bits
(or 8, in whole bytes) are read as the word the block itself forms at every iteration, an `F4` word; `E4` and `R2`
words share their numbers with it (log entry 6). -/
def tableRaw (nbits w : Nat) : Option RawWord :=
  match nbits with
  | 2 => some (.r2 w 0)
  | 4 => some (.f4 w)
  | 8 => some (.f4 w)
  | 10 => some (.s10 w)
  | 16 => some (.s10 w)
  | _ => none

/-- The instruction the decoder reads from a number of the opcode table, under the table's codes; none where it
rejects. -/
def decodeTableWord (nbits w : Nat) : Option Instr :=
  match tableRaw nbits w with
  | none => none
  | some r =>
    match decode tableCodes r with
    | .ok i => some i
    | .error _ => none

end Sys2Proof
end

