-- ==== Sys2Proof/Machine/Params.lean ====
section
/-! DEFINITION. Reading the configuration: the bit-order codes, the digits of the radix, and the values this
hardware takes (R6). -/

namespace Sys2Proof.Machine

/-- The bit order a code names; every other code is invalid (R61). -/
def orderOfCode (c : OrderCodes) (bo : Nat) : Option BitOrder :=
  if bo = c.msbFirst then some .msbFirst
  else if bo = c.lsbFirst then some .lsbFirst
  else none

/-- The code of a bit order (R61). -/
def codeOfOrder (c : OrderCodes) : BitOrder → Nat
  | .msbFirst => c.msbFirst
  | .lsbFirst => c.lsbFirst

/-- `q mod RADIX`: a digit of the table's range, the radix being at most ten (R111). -/
def digitOf (r : Radix) (q : Nat) : Fin 10 :=
  ⟨q % r.toNat, Nat.lt_of_lt_of_le (Nat.mod_lt q (Nat.succ_pos r.pred.val)) r.pred.isLt⟩

/-- `RADIX = 10` (R6). -/
def radixTen : Radix := ⟨9⟩

/-- `NUM_DIGITS = 4` (R6). -/
def fourDigits : DigitCount := ⟨3⟩

/-- `PATTERN_WIDTH = 8` (R6). -/
def eightBits : PatternWidth := ⟨7⟩

/-- The pin assignment: open, so each pin is free (D18, log entry 17). -/
def openPinMap : PinMap where
  digitEn := ⟨Config.pinOf (.out (.digitEn .ones)), Config.pinOf (.out (.digitEn .tens)),
    Config.pinOf (.out (.digitEn .hundreds)), Config.pinOf (.out (.digitEn .thousands))⟩
  data := Config.pinOf (.out .data)
  clock := Config.pinOf (.out .clock)
  latch := Config.pinOf (.out .latch)
  btnCount := Config.pinOf (.inp .btnCount)
  btnReset := Config.pinOf (.inp .btnReset)

/-- The values this hardware takes (R6, third column): the codes of D2, about 4 ms, no pulse delay, the entries 0, 1
and 9 of the source, and for the digits 2 to 8 the defaults of R101 (general knowledge of the spec's, D17; log entries
3 and 4). -/
def defaultParams : Params where
  numDigits := fourDigits
  patternWidth := eightBits
  codes := tableCodes
  displayBitOrder := .lsbFirst
  repeatThreshold := 30
  radix := radixTen
  countWidth := .unbounded
  pdWidth := .unbounded
  tIllum := 4000
  tPulseMin := 0
  seg0 := 0xFC#8
  seg1 := 0x60#8
  seg2 := 0xDA#8
  seg3 := 0xF2#8
  seg4 := 0x66#8
  seg5 := 0xB6#8
  seg6 := 0xBE#8
  seg7 := 0xE0#8
  seg8 := 0xFE#8
  seg9 := 0xE6#8
  pinMap := openPinMap

end Sys2Proof.Machine
end

