-- ==== Sys2Proof/Machine/State.lean ====
section
/-! DEFINITION. The state of the block, of the environment a claim needs, and of the model's own inputs; the reasons
a step can stop; the state after reset. -/

namespace Sys2Proof.Machine

/-- One event of the trace (R9): a line write `W(L, v)`, or a delay `D(t)` in microseconds (log
entry 4). -/
inductive Event where
  | write (l : OutLine) (v : Level)
  | delay (t : Nat)
deriving DecidableEq, Repr

/-- The fault register `FAULT` with the offending operand kept beside it (R14, R163). Code 3 cannot be written
down (R73, U6). -/
inductive FaultReg where
  | none
  | configError (bo : Nat)
  | digitRange (d : Nat)
deriving DecidableEq, Repr

/-- The two-bit code of `FAULT` (R14, R67). -/
def FaultReg.code : FaultReg → Nat
  | .none => 0
  | .configError _ => 1
  | .digitRange _ => 2

/-- The position inside a frame (R19, R68): which bit cell and which of its three events, or the latch pulse. -/
inductive FrameStep where
  | data (j : Fin 8)
  | clockHigh (j : Fin 8)
  | clockLow (j : Fin 8)
  | latchHigh
  | latchLow
deriving DecidableEq, Repr

/-- The step inside one position of `RENDER` (R19, R112). -/
inductive RenderStep where
  | frame (f : FrameStep)
  | enable
  | hold
  | disable
deriving DecidableEq, Repr

/-- `SEQ`, the position of the control sequencer (R19, D27): the event or the register action that comes next. -/
inductive Seq where
  /-- The start of an iteration, or of the next operation that is driven directly. -/
  | start
  /-- The count button has been sampled, the reset button not yet (R18). -/
  | sampleReset
  /-- Both buttons have been sampled; the transition comes next (R130). -/
  | transition
  /-- Inside a `SHIFTOUT` that is driven directly. -/
  | shift (bo : BitOrder) (p : Pattern) (f : FrameStep)
  /-- Inside a `RENDER`, at position `i`. -/
  | render (bo : BitOrder) (i : Position) (r : RenderStep)
deriving DecidableEq, Repr

/-- An operation that a test harness drives directly (R60, R72), as the decode word it hands over. -/
inductive Call where
  | shiftout (word : Nat)
  | encode (word : Nat)
  | render (word n : Nat)
deriving DecidableEq, Repr

/-- The levels of the two buttons at one sampling instant (R75: written `rb cb`). -/
structure Sample where
  rb : Level
  cb : Level
deriving DecidableEq, Repr

/-- The state.  The fields down to `seq` are the block's (R10), `sr` and `q` are the external register's (R24), the
others are the model's own; INVENTORY.md lists each with its rule and its reset value. -/
structure State where
  /-- `COUNT`, a natural number with no upper bound (R11). -/
  count : Nat
  /-- `PD`, the press duration, a natural number with no upper bound (R12). -/
  pd : Nat
  /-- `STATE` (R13). -/
  state : FsmState
  /-- `FAULT` (R14). -/
  fault : FaultReg
  /-- The line `DATA` (R15). -/
  data : Level
  /-- The line `CLOCK` (R15). -/
  clock : Level
  /-- The line `LATCH` (R15). -/
  latch : Level
  /-- The lines `DIGIT_EN[0..3]`, active-low (R16). -/
  digitEn : PerPosition Level
  /-- The line `BTN_COUNT` (R17). -/
  btnCount : Level
  /-- The line `BTN_RESET` (R17). -/
  btnReset : Level
  /-- `CB`, the sampled copy of `BTN_COUNT` (R18). -/
  cb : Level
  /-- `RB`, the sampled copy of `BTN_RESET` (R18). -/
  rb : Level
  /-- `DIG[0..3]`, the digits of the number being rendered (R19, R111). -/
  dig : PerPosition (Fin 10)
  /-- `SEQ` (R19). -/
  seq : Seq
  /-- `SR`, the shift stage of the external register (R24). -/
  sr : Pattern
  /-- `Q`, its output stage (R24). -/
  q : Pattern
  /-- The trace of every event so far, in the order performed (R9). -/
  trace : List Event
  /-- The pattern the last directly driven `ENCODE` returned (R100): the model's own field. -/
  returned : Option Pattern
  /-- The open parameters (R29): read-only, the model's own field (log entry 3). -/
  params : Params
  /-- The operations a test harness drives next, first one first: the model's own field (log entry 5). -/
  calls : List Call
  /-- The button levels at the next sampling instants, first one first: the model's own field (log entry 2). -/
  stimulus : List Sample
  /-- How many free button levels have been drawn: the model's own field (log entry 2). -/
  draws : Nat
deriving DecidableEq, Repr

/-- Why the machine stops with a fault.  Both are raised by every step and every operation of a block that has
halted (R163, R167), and by nothing else. -/
inductive Fault where
  /-- `FAULT` is `CONFIG_ERROR`: a bit-order code `bo` was neither of the two (R161). Safe: the spec's own halt. -/
  | configErrorHalt (bo : Nat)
  /-- `FAULT` is `DIGIT_RANGE`: a digit `d` was outside 0..9 (R162). Safe: the spec's own halt. -/
  | digitRangeHalt (d : Nat)
deriving DecidableEq, Repr

/-- Why an instruction has no meaning. -/
inductive Refusal where
  /-- Raised by an arm of `exec` whose instruction has no meaning yet; no arm is left that raises it. Safe. -/
  | notModelled (mnemonic : String)
  /-- Raised by `ITER.BADSTATE`: the iteration began in the reserved state code, which a decoder refuses (R73, U5).
  Safe: no step is taken. -/
  | reservedState (rb cb : Level)
  /-- Raised by a step whose next directly driven word has more bits than its format. Safe: no step is taken. -/
  | badWord (r : DecodeReject)
deriving DecidableEq, Repr

/-- What an operation answers. -/
abbrev Result := Host.Outcome State Fault Refusal

/-- The state after power-on (R28, R191).  The values that the spec calls arbitrary or unspecified are free
(log entry 1). -/
def State.reset : State where
  count := 0
  pd := 0
  state := .idle
  fault := .none
  data := false
  clock := false
  latch := false
  digitEn := .const true
  btnCount := false
  btnReset := false
  cb := Config.powerOnSample .btnCount
  rb := Config.powerOnSample .btnReset
  dig := ⟨Config.powerOnDigit .ones, Config.powerOnDigit .tens, Config.powerOnDigit .hundreds,
    Config.powerOnDigit .thousands⟩
  seq := .start
  sr := Config.powerOnSr
  q := Config.powerOnQ
  trace := []
  returned := Option.none
  params := defaultParams
  calls := []
  stimulus := []
  draws := 0

end Sys2Proof.Machine
end

