-- ==== Sys2Proof/Machine/Flags.lean ====
section
/-! DEFINITION. The block has no flags: these are the three comparisons it makes, none of which stores a result
(R20), and the test of the halt. -/

namespace Sys2Proof.Machine

/-- `PD >= REPEAT_THRESHOLD`, of the value just written (R136). -/
def repeatDue (ps : Params) (pd : Nat) : Bool := decide (ps.repeatThreshold ≤ pd)

/-- The range test of a digit (R103). -/
def digitInRange (d : Nat) : Bool := decide (d < 10)

/-- Is a code one of the two bit orders (R81)? -/
def orderValid (c : OrderCodes) (bo : Nat) : Bool := (orderOfCode c bo).isSome

/-- The block is halted while `FAULT` is not `NONE` (R14, R163). -/
def State.halted (s : State) : Bool := !decide (s.fault = .none)

end Sys2Proof.Machine
end

