-- ==== Sys2Proof/Machine/Operands.lean ====
section
/-! DEFINITION. Reading the operands: bits of a pattern in either order, the segment table, the decimal digits, and
the shift of the external register. -/

namespace Sys2Proof.Machine

/-- The bit of the pattern sent in cell `j` of a frame `w` bits wide: bit `w - 1 - j` most significant first, which is
`7 - j` for a width of eight, and bit `j` least significant first (R43, R68, R82).  Which bits a smaller width sends is
the model's own (DESIGN CHOICE, log entry 3). -/
def bitAt (bo : BitOrder) (w : PatternWidth) (p : Pattern) (j : Fin 8) : Level :=
  match bo with
  | .msbFirst => p.getLsbD (w.pred.val - j.val)
  | .lsbFirst => p.getLsbD j.val

/-- `rev8(p)`: bit `i` of the result is bit `7 - i` of `p` (00_scope.md section 5). -/
def rev8 (p : Pattern) : Pattern := p.reverse

/-- What a frame leaves in the external register: `p`, or `rev8(p)` (R44, R88). -/
def onPins (bo : BitOrder) (p : Pattern) : Pattern :=
  match bo with
  | .msbFirst => p
  | .lsbFirst => rev8 p

/-- One shift of the external register: `SR[7:1] <- SR[6:0]; SR[0] <- DATA` (R24). -/
def shiftIn (sr : Pattern) (b : Level) : Pattern := BitVec.concat (sr.setWidth 7) b

/-- `SEG_TABLE` at a digit (R101). -/
def segmentOf (ps : Params) (d : Fin 10) : Pattern :=
  match d with
  | 0 => ps.seg0
  | 1 => ps.seg1
  | 2 => ps.seg2
  | 3 => ps.seg3
  | 4 => ps.seg4
  | 5 => ps.seg5
  | 6 => ps.seg6
  | 7 => ps.seg7
  | 8 => ps.seg8
  | 9 => ps.seg9

/-- `TableRead(d)`: there is no entry outside 0..9 (R41, R102). -/
def tableRead (ps : Params) (d : Nat) : Option Pattern :=
  if digitInRange d then some (segmentOf ps (Fin.ofNat 10 d)) else none

/-- The four digits of `n`, ones first, by repeated division by the radix; what is left above the thousands is
dropped (R111, R113). -/
def decimalDigits (r : Radix) (n : Nat) : PerPosition (Fin 10) where
  ones := digitOf r n
  tens := digitOf r (n / r.toNat)
  hundreds := digitOf r (n / r.toNat / r.toNat)
  thousands := digitOf r (n / r.toNat / r.toNat / r.toNat)

/-- The word a directly driven operation is handed over as (R70). -/
def Call.raw : Call → RawWord
  | .shiftout w => .s10 w
  | .encode w => .e4 w
  | .render w n => .r2 w n

end Sys2Proof.Machine
end

