-- ==== Sys2Proof/Machine/Ops.lean ====
section
/-! DEFINITION. The shared operations: one event, a list of events, raising a fault, and the three operations
`SHIFTOUT`, `ENCODE` and `RENDER` in every form; the environment's button levels. -/

namespace Sys2Proof.Machine

/-! ### Events -/

/-- `Delay(t)`, and the part of a line write that every line shares: the event joins the trace (R9). -/
def record (e : Event) (s : State) : State := { s with trace := s.trace ++ [e] }

/-- `CLOCK <- v`.  On a rising edge the external register shifts and captures `DATA` (R24); every rising edge is
seen (D15, log entry 8). -/
def writeClock (v : Level) (s : State) : State :=
  { s with clock := v, sr := if !s.clock && v then shiftIn s.sr s.data else s.sr }

/-- `LATCH <- v`.  On a rising edge the shift stage is copied to the output stage at once (R24). -/
def writeLatch (v : Level) (s : State) : State :=
  { s with latch := v, q := if !s.latch && v then s.sr else s.q }

/-- `L <- v`, without its place in the trace: one line changes (R47). -/
def writeLine (l : OutLine) (v : Level) (s : State) : State :=
  match l with
  | .data => { s with data := v }
  | .clock => writeClock v s
  | .latch => writeLatch v s
  | .digitEn i => { s with digitEn := s.digitEn.set i v }

/-- One event takes effect at the lines and joins the trace (R9, R51). -/
def applyEvent (e : Event) (s : State) : State :=
  match e with
  | .write l v => record e (writeLine l v s)
  | .delay _ => record e s

/-- Events in order, none dropped, repeated or reordered (R51). -/
def runEvents (es : List Event) (s : State) : State :=
  match es with
  | [] => s
  | e :: rest => runEvents rest (applyEvent e s)

/-- `SEQ` moved to a position (R19). -/
def withSeq (sq : Seq) (s : State) : State := { s with seq := sq }

/-! ### Faults -/

/-- Taking a fault (R163): `FAULT` records the cause and the offending operand, and everything else holds.  This is
the whole of the entry (R166); the halt that follows is `whileRunning`, and there is no return (R167). -/
def raise (cause : FaultReg) (s : State) : State := { s with fault := cause }

/-- The rest of an operation: abandoned where it stands once a fault has been raised (R163). -/
def andThen (f : State → State) (s : State) : State := if s.halted then s else f s

/-- No operation starts in a halted block (R14, R163): its outcome is the halt's, whatever was asked. -/
def unlessHalted (s : State) (r : Result) : Result :=
  match s.fault with
  | .none => r
  | .configError bo => .fault (.configErrorHalt bo)
  | .digitRange d => .fault (.digitRangeHalt d)

/-- An operation that ends in the state `t`, started in `s`. -/
def whileRunning (s : State) (t : State) : Result := unlessHalted s (.next t)

/-! ### SHIFTOUT -/

/-- Bit cell `j`: the data line is set, then the clock pulses (R68, R82). -/
def bitCell (b : Level) : List Event :=
  [.write .data b, .write .clock true, .write .clock false]

/-- The bit cells of a frame, in the order they are sent (R6, R82): `PATTERN_WIDTH` of them; fewer than eight are
the model's own (DESIGN CHOICE, log entry 3). -/
def cells (w : PatternWidth) : List (Fin 8) := [0, 1, 2, 3, 4, 5, 6, 7].take w.toNat

/-- The events of some bit cells. -/
def cellEvents (bo : BitOrder) (w : PatternWidth) (p : Pattern) (js : List (Fin 8)) : List Event :=
  js.flatMap (fun j => bitCell (bitAt bo w p j))

/-- The events of a frame (R82): its bit cells, then the latch pulse; 26 events for a width of eight. -/
def frame (bo : BitOrder) (w : PatternWidth) (p : Pattern) : List Event :=
  cellEvents bo w p (cells w) ++ [.write .latch true, .write .latch false]

/-- `SHIFTOUT bo, p` (R80, R81, R82): the bit order is tested before any line is written. -/
def shiftout (bo : Nat) (p : Pattern) (s : State) : State :=
  match orderOfCode s.params.codes bo with
  | none => raise (.configError bo) s
  | some o => runEvents (frame o s.params.patternWidth p) s

/-! ### ENCODE -/

/-- `ENCODE d`, driven directly: its result is all it writes (R100, R102), or `FAULT` on a digit out of range
(R103). -/
def encodeDigit (d : Nat) (s : State) : State :=
  match tableRead s.params d with
  | none => raise (.digitRange d) s
  | some p => { s with returned := some p }

/-! ### RENDER -/

/-- The decomposition at the start of `RENDER` (R111). -/
def decompose (n : Nat) (s : State) : State := { s with dig := decimalDigits s.params.radix n }

/-- Position `i` is lit for one hold (R112, R115). -/
def illuminate (i : Position) (tIllum : Nat) : List Event :=
  [.write (.digitEn i) false, .delay tIllum, .write (.digitEn i) true]

/-- One position of `RENDER` (R112, R114): encode, shift out with every digit off, then enable, hold, disable. -/
def renderPosition (bo : Nat) (i : Position) (s : State) : State :=
  match tableRead s.params (s.dig.get i).val with
  | none => raise (.digitRange (s.dig.get i).val) s
  | some p => andThen (runEvents (illuminate i s.params.tIllum)) (shiftout bo p s)

/-- The positions that a `RENDER` visits, ones first (R6, R45): `NUM_DIGITS` of them; that fewer than four are
the first ones is the model's own (DESIGN CHOICE, log entry 3). -/
def positionsOf (n : DigitCount) : List Position := Position.all.take n.toNat

/-- Positions in order, each only if the one before it has not raised a fault (R112, R116). -/
def renderPositions (bo : Nat) (todo : List Position) (s : State) : State :=
  match todo with
  | [] => s
  | i :: rest => renderPositions bo rest (andThen (renderPosition bo i) s)

/-- `RENDER n, bo` (R110, R112, R116): the decomposition, then the digits, ones first. -/
def render (bo : Nat) (n : Nat) (s : State) : State :=
  renderPositions bo (positionsOf s.params.numDigits) (decompose n s)

/-! ### The buttons -/

/-- The environment puts the levels of the next sampling instant on the button lines: the head of the stimulus, or
free levels when no stimulus is listed (R17, D23, U8; log entry 2). -/
def arrive (s : State) : State :=
  match s.stimulus with
  | smp :: rest => { s with btnReset := smp.rb, btnCount := smp.cb, stimulus := rest }
  | [] =>
    { s with
      btnReset := Config.freeBtnReset s.draws
      btnCount := Config.freeBtnCount s.draws
      draws := s.draws + 1 }

/-- `CB <- Sample(BTN_COUNT)` (R18). -/
def sampleCount (s : State) : State := { s with cb := s.btnCount }

/-- `RB <- Sample(BTN_RESET)` (R18). -/
def sampleReset (s : State) : State := { s with rb := s.btnReset }

end Sys2Proof.Machine
end

