-- ==== Sys2Proof/Machine/Counter.lean ====
section
/-! DEFINITION. The Input and Counter State Machine's rows: the seven transitions of `ITERATE`, each followed by one
`RENDER` of the count as just updated, and the reserved state code (44_counter_fsm.md). -/

namespace Sys2Proof.Machine

/-! ### The register part of each transition: no event (R130) -/

/-- The two samples of the iteration (R18, R130). -/
def withSamples (rb cb : Level) (s : State) : State := { s with cb := cb, rb := rb }

/-- R131: nothing written. -/
def onIdleNone (s : State) : State := withSamples false false s

/-- R132, R133: one count at once, the press duration restarts. -/
def onIdleCount (rb : Level) (s : State) : State :=
  { withSamples rb true s with count := s.count + 1, pd := 0, state := .counting }

/-- R134: the count is zeroed. -/
def onIdleReset (s : State) : State :=
  { withSamples true false s with count := 0, state := .resetting }

/-- R135. -/
def onCountingRelease (rb : Level) (s : State) : State :=
  { withSamples rb false s with state := .idle }

/-- R136: the press duration grows, and from the threshold on the count grows with it; `STATE` is not written. -/
def onCountingHold (rb : Level) (s : State) : State :=
  { withSamples rb true s with
    pd := s.pd + 1
    count := if repeatDue s.params (s.pd + 1) then s.count + 1 else s.count }

/-- R137. -/
def onResettingRelease (cb : Level) (s : State) : State :=
  { withSamples false cb s with state := .idle }

/-- R138: the count is held at zero; `STATE` is not written. -/
def onResettingHold (cb : Level) (s : State) : State :=
  { withSamples true cb s with count := 0 }

/-- The bit-order code the loop passes to every `RENDER`: that of `DISPLAY_BIT_ORDER`, which is `LSB_FIRST` (R6, R130). -/
def displayCode (ps : Params) : Nat := codeOfOrder ps.codes ps.displayBitOrder

/-- The end of every iteration: `RENDER(COUNT, LSB_FIRST)` of the count as just updated (R130). -/
def renderCount (s : State) : State := render (displayCode s.params) s.count s

/-! ### The rows -/

/-- `ITER.IDLE_NONE` (R131). -/
def execIterIdleNone (s : State) : Result := whileRunning s (renderCount (onIdleNone s))

/-- `ITER.IDLE_COUNT` (R132, R133). -/
def execIterIdleCount (rb : Level) (s : State) : Result := whileRunning s (renderCount (onIdleCount rb s))

/-- `ITER.IDLE_RESET` (R134). -/
def execIterIdleReset (s : State) : Result := whileRunning s (renderCount (onIdleReset s))

/-- `ITER.COUNTING_RELEASE` (R135). -/
def execIterCountingRelease (rb : Level) (s : State) : Result :=
  whileRunning s (renderCount (onCountingRelease rb s))

/-- `ITER.COUNTING_HOLD` (R136). -/
def execIterCountingHold (rb : Level) (s : State) : Result :=
  whileRunning s (renderCount (onCountingHold rb s))

/-- `ITER.RESETTING_RELEASE` (R137). -/
def execIterResettingRelease (cb : Level) (s : State) : Result :=
  whileRunning s (renderCount (onResettingRelease cb s))

/-- `ITER.RESETTING_HOLD` (R138). -/
def execIterResettingHold (cb : Level) (s : State) : Result :=
  whileRunning s (renderCount (onResettingHold cb s))

/-- `ITER.BADSTATE` (R73): a halted block stays halted; otherwise the reserved code is refused, no step. -/
def execIterBadstate (rb cb : Level) (s : State) : Result :=
  unlessHalted s (.refused (.reservedState rb cb))

end Sys2Proof.Machine
end

