-- ==== Sys2Proof/Machine/Display.lean ====
section
/-! DEFINITION. The Multiplexed Display Driver's rows: `RENDER` in its three forms (43_display_driver.md), and what
the display shows (R25, R104). -/

namespace Sys2Proof.Machine

/-- `RENDER.MSB` (R112, R123). -/
def execRenderMsb (n : Nat) (s : State) : Result := whileRunning s (render s.params.codes.msbFirst n s)

/-- `RENDER.LSB` (R112). -/
def execRenderLsb (n : Nat) (s : State) : Result := whileRunning s (render s.params.codes.lsbFirst n s)

/-- `RENDER.BADORDER` (R116): the decomposition happens, then the first frame takes the configuration fault. -/
def execRenderBadorder (bo : Nat) (n : Nat) (s : State) : Result := whileRunning s (render bo n s)

/-- What the display shows at a position: the output stage while the position's line is 0, nothing while it is 1
(R25). -/
def visible (s : State) (i : Position) : Option Pattern :=
  if s.digitEn.get i then none else some s.q

/-- The segments of a digit by their usual letters (R104, general knowledge of the spec's, D25). -/
inductive Segment where
  | a
  | b
  | c
  | d
  | e
  | f
  | g
  | dp
deriving DecidableEq, Repr

/-- The pattern bit of a segment (R104). -/
def segmentBit : Segment → Nat
  | .a => 7
  | .b => 6
  | .c => 5
  | .d => 4
  | .e => 3
  | .f => 2
  | .g => 1
  | .dp => 0

/-- The register output wired to a segment: the board is made for `LSB_FIRST` frames, so `Q[0]` drives segment a
(R104, R123). -/
def segmentPin (sg : Segment) : Nat := 7 - segmentBit sg

/-- Is a segment lit at a position (R25, R105)? -/
def lit (s : State) (i : Position) (sg : Segment) : Bool :=
  match visible s i with
  | none => false
  | some pins => pins.getLsbD (segmentPin sg)

end Sys2Proof.Machine
end

