-- ==== Sys2Proof/Machine/Encoder.lean ====
section
/-! DEFINITION. The Segment Encoder's rows: `ENCODE` of each digit and of the digits out of range
(42_segment_encoder.md). -/

namespace Sys2Proof.Machine

/-- `ENCODE.0` (R102). -/
def execEncode0 (s : State) : Result := whileRunning s (encodeDigit 0 s)

/-- `ENCODE.1` (R102). -/
def execEncode1 (s : State) : Result := whileRunning s (encodeDigit 1 s)

/-- `ENCODE.2` (R102). -/
def execEncode2 (s : State) : Result := whileRunning s (encodeDigit 2 s)

/-- `ENCODE.3` (R102). -/
def execEncode3 (s : State) : Result := whileRunning s (encodeDigit 3 s)

/-- `ENCODE.4` (R102). -/
def execEncode4 (s : State) : Result := whileRunning s (encodeDigit 4 s)

/-- `ENCODE.5` (R102). -/
def execEncode5 (s : State) : Result := whileRunning s (encodeDigit 5 s)

/-- `ENCODE.6` (R102). -/
def execEncode6 (s : State) : Result := whileRunning s (encodeDigit 6 s)

/-- `ENCODE.7` (R102). -/
def execEncode7 (s : State) : Result := whileRunning s (encodeDigit 7 s)

/-- `ENCODE.8` (R102). -/
def execEncode8 (s : State) : Result := whileRunning s (encodeDigit 8 s)

/-- `ENCODE.9` (R102). -/
def execEncode9 (s : State) : Result := whileRunning s (encodeDigit 9 s)

/-- `ENCODE.RANGE_A` (R103): takes the digit-range fault. -/
def execEncodeRangeA (d : Nat) (s : State) : Result := whileRunning s (encodeDigit d s)

/-- `ENCODE.RANGE_B` (R103): takes the digit-range fault. -/
def execEncodeRangeB (d : Nat) (s : State) : Result := whileRunning s (encodeDigit d s)

end Sys2Proof.Machine
end

