-- ==== Sys2Proof/Machine/Shifter.lean ====
section
/-! DEFINITION. The Serial Shifter's rows: `SHIFTOUT` in its three forms (41_serial_shifter.md). -/

namespace Sys2Proof.Machine

/-- `SHIFTOUT.MSB` (R83). -/
def execShiftoutMsb (p : Pattern) (s : State) : Result := whileRunning s (shiftout s.params.codes.msbFirst p s)

/-- `SHIFTOUT.LSB` (R84). -/
def execShiftoutLsb (p : Pattern) (s : State) : Result := whileRunning s (shiftout s.params.codes.lsbFirst p s)

/-- `SHIFTOUT.BADORDER` (R85): takes the configuration fault; `p` is not examined. -/
def execShiftoutBadorder (bo : Nat) (p : Pattern) (s : State) : Result := whileRunning s (shiftout bo p s)

end Sys2Proof.Machine
end

