-- ==== Sys2Proof/Machine/Dispatch.lean ====
section
/-! DEFINITION. The dispatch of each row of the opcode map to its meaning (R71). -/

namespace Sys2Proof.Machine

def exec (i : Instr) (s : State) : Host.Outcome State Fault Refusal :=
  match i with
  | .shiftoutMsb p => Sys2Proof.Machine.execShiftoutMsb p s
  | .shiftoutLsb p => Sys2Proof.Machine.execShiftoutLsb p s
  | .shiftoutBadorder bo p => Sys2Proof.Machine.execShiftoutBadorder bo p s
  | .encode0 => Sys2Proof.Machine.execEncode0 s
  | .encode1 => Sys2Proof.Machine.execEncode1 s
  | .encode2 => Sys2Proof.Machine.execEncode2 s
  | .encode3 => Sys2Proof.Machine.execEncode3 s
  | .encode4 => Sys2Proof.Machine.execEncode4 s
  | .encode5 => Sys2Proof.Machine.execEncode5 s
  | .encode6 => Sys2Proof.Machine.execEncode6 s
  | .encode7 => Sys2Proof.Machine.execEncode7 s
  | .encode8 => Sys2Proof.Machine.execEncode8 s
  | .encode9 => Sys2Proof.Machine.execEncode9 s
  | .encodeRangeA d => Sys2Proof.Machine.execEncodeRangeA d s
  | .encodeRangeB d => Sys2Proof.Machine.execEncodeRangeB d s
  | .renderMsb n => Sys2Proof.Machine.execRenderMsb n s
  | .renderLsb n => Sys2Proof.Machine.execRenderLsb n s
  | .renderBadorder bo n => Sys2Proof.Machine.execRenderBadorder bo n s
  | .iterIdleNone => Sys2Proof.Machine.execIterIdleNone s
  | .iterIdleCount rb => Sys2Proof.Machine.execIterIdleCount rb s
  | .iterIdleReset => Sys2Proof.Machine.execIterIdleReset s
  | .iterCountingRelease rb => Sys2Proof.Machine.execIterCountingRelease rb s
  | .iterCountingHold rb => Sys2Proof.Machine.execIterCountingHold rb s
  | .iterResettingRelease cb => Sys2Proof.Machine.execIterResettingRelease cb s
  | .iterResettingHold cb => Sys2Proof.Machine.execIterResettingHold cb s
  | .iterBadstate rb cb => Sys2Proof.Machine.execIterBadstate rb cb s

end Sys2Proof.Machine
end

