-- ==== Sys2Proof/Machine/Fetch.lean ====
section
/-! DEFINITION. Where the next instruction comes from: an operation that is driven directly, or the word the block
forms from `STATE` and the two button levels at the start of an iteration (R69, R130). -/

namespace Sys2Proof.Machine

/-- The `F4` word of the iteration that starts with the present levels of the buttons (R69). -/
def iterationWord (s : State) : RawWord := .f4 (f4Bits s.state s.btnReset s.btnCount)

/-- The next word, and the state its instruction runs in.  Directly driven operations come first (log entry 5);
without one, the environment sets the button levels and the block forms its own word. -/
def nextFetch (s : State) : RawWord × State :=
  match s.calls with
  | c :: rest => (c.raw, { s with calls := rest })
  | [] => (iterationWord (arrive s), arrive s)

/-- What follows the decoding of a word; a word the decoder rejects is refused by name. -/
def onDecoded (r : Except DecodeReject Instr) (k : Instr → Result) : Result :=
  match r with
  | .ok i => k i
  | .error e => .refused (.badWord e)

/-- `s` with a word where the next step takes its instruction from: an `S10`, `E4` or `R2` word is the next
directly driven operation; an `F4` word is formed from `STATE` and the next button levels, so these are set, and no
directly driven operation stands before it (log entries 6 and 7). -/
def placeRaw (r : RawWord) (s : State) : State :=
  match r with
  | .s10 b => { s with seq := .start, calls := .shiftout b :: s.calls }
  | .e4 b => { s with seq := .start, calls := .encode b :: s.calls }
  | .r2 b n => { s with seq := .start, calls := .render b n :: s.calls }
  | .f4 b =>
    { s with
      seq := .start
      calls := []
      state := FsmState.ofCode ((BitVec.ofNat 4 b).extractLsb' 2 2)
      stimulus := ⟨(BitVec.ofNat 4 b).getLsbD 1, (BitVec.ofNat 4 b).getLsbD 0⟩ :: s.stimulus }

/-- `placeRaw` of a number of the opcode table. -/
def placeTableWord (s : State) (nbits w : Nat) : State :=
  match tableRaw nbits w with
  | some r => placeRaw r s
  | none => s

end Sys2Proof.Machine
end

