-- ==== Sys2Proof/Machine/Sequencer.lean ====
section
/-! DEFINITION. The block at event grain (R9, R19, D27): one event, or one register action between events, at a time,
with `SEQ` saying which is next. -/

namespace Sys2Proof.Machine

/-- The event of a step of a frame (R68). -/
def frameEvent (bo : BitOrder) (w : PatternWidth) (p : Pattern) : FrameStep → Event
  | .data j => .write .data (bitAt bo w p j)
  | .clockHigh _ => .write .clock true
  | .clockLow _ => .write .clock false
  | .latchHigh => .write .latch true
  | .latchLow => .write .latch false

/-- The step after this one of a frame `w` bits wide; none after the last (R82; a width below eight, log entry 3). -/
def frameNext (w : PatternWidth) : FrameStep → Option FrameStep
  | .data j => some (.clockHigh j)
  | .clockHigh j => some (.clockLow j)
  | .clockLow j =>
    if h : j.val < w.pred.val then some (.data ⟨j.val + 1, Nat.lt_of_le_of_lt h w.pred.isLt⟩) else some .latchHigh
  | .latchHigh => some .latchLow
  | .latchLow => none

/-- The first step of every frame. -/
def frameStart : FrameStep := .data 0

/-- The position after this one; none after the last of the `n` in use (R6, R45; fewer than four, log
entry 3). -/
def positionNext (n : DigitCount) : Position → Option Position
  | .ones => if 1 < n.toNat then some .tens else none
  | .tens => if 2 < n.toNat then some .hundreds else none
  | .hundreds => if 3 < n.toNat then some .thousands else none
  | .thousands => none

/-- The event that `SEQ` says comes next, if it is inside a frame or a `RENDER`. -/
def eventNow (s : State) : Option Event :=
  match s.seq with
  | .start => none
  | .sampleReset => none
  | .transition => none
  | .shift bo p f => some (frameEvent bo s.params.patternWidth p f)
  | .render bo i (.frame f) =>
    some (frameEvent bo s.params.patternWidth (segmentOf s.params (s.dig.get i)) f)
  | .render _ i .enable => some (.write (.digitEn i) false)
  | .render _ _ .hold => some (.delay s.params.tIllum)
  | .render _ i .disable => some (.write (.digitEn i) true)

/-- `SEQ` after the event it says comes next (R19: the fixed order of the operation rules). -/
def seqNext (ps : Params) : Seq → Seq
  | .start => .start
  | .sampleReset => .transition
  | .transition => .start
  | .shift bo p f =>
    match frameNext ps.patternWidth f with
    | some f' => .shift bo p f'
    | none => .start
  | .render bo i (.frame f) =>
    match frameNext ps.patternWidth f with
    | some f' => .render bo i (.frame f')
    | none => .render bo i .enable
  | .render bo i .enable => .render bo i .hold
  | .render bo i .hold => .render bo i .disable
  | .render bo i .disable =>
    match positionNext ps.numDigits i with
    | some i' => .render bo i' (.frame frameStart)
    | none => .start

/-- The start of a `SHIFTOUT` at event grain: the test of the bit order (R81). -/
def beginShiftout (bo : Nat) (p : Pattern) (s : State) : State :=
  match orderOfCode s.params.codes bo with
  | none => raise (.configError bo) s
  | some o => withSeq (.shift o p frameStart) s

/-- The start of a `RENDER` at event grain: the decomposition, then the test of the first frame (R111, R116). -/
def beginRender (bo : Nat) (n : Nat) (s : State) : State :=
  match orderOfCode s.params.codes bo with
  | none => raise (.configError bo) (decompose n s)
  | some o => withSeq (.render o .ones (.frame frameStart)) (decompose n s)

/-- The end of the transition at event grain: the `RENDER` of the count begins (R130). -/
def beginCount (s : State) : State := beginRender (displayCode s.params) s.count s

/-- The part of an operation before its first event; `ENCODE` has no event and ends here (R100). -/
def begin (i : Instr) (s : State) : Result :=
  match i with
  | .shiftoutMsb p => .next (beginShiftout s.params.codes.msbFirst p s)
  | .shiftoutLsb p => .next (beginShiftout s.params.codes.lsbFirst p s)
  | .shiftoutBadorder bo p => .next (beginShiftout bo p s)
  | .encode0 => .next (encodeDigit 0 s)
  | .encode1 => .next (encodeDigit 1 s)
  | .encode2 => .next (encodeDigit 2 s)
  | .encode3 => .next (encodeDigit 3 s)
  | .encode4 => .next (encodeDigit 4 s)
  | .encode5 => .next (encodeDigit 5 s)
  | .encode6 => .next (encodeDigit 6 s)
  | .encode7 => .next (encodeDigit 7 s)
  | .encode8 => .next (encodeDigit 8 s)
  | .encode9 => .next (encodeDigit 9 s)
  | .encodeRangeA d => .next (encodeDigit d s)
  | .encodeRangeB d => .next (encodeDigit d s)
  | .renderMsb n => .next (beginRender s.params.codes.msbFirst n s)
  | .renderLsb n => .next (beginRender s.params.codes.lsbFirst n s)
  | .renderBadorder bo n => .next (beginRender bo n s)
  | .iterIdleNone => .next (beginCount (onIdleNone s))
  | .iterIdleCount rb => .next (beginCount (onIdleCount rb s))
  | .iterIdleReset => .next (beginCount (onIdleReset s))
  | .iterCountingRelease rb => .next (beginCount (onCountingRelease rb s))
  | .iterCountingHold rb => .next (beginCount (onCountingHold rb s))
  | .iterResettingRelease cb => .next (beginCount (onResettingRelease cb s))
  | .iterResettingHold cb => .next (beginCount (onResettingHold cb s))
  | .iterBadstate rb cb => .refused (.reservedState rb cb)

/-- The tick at the start of an iteration or of a directly driven operation: the count button is sampled first
(R47, D4), or the operation's word is decoded. -/
def tickStart (s : State) : Result :=
  match s.calls with
  | c :: rest => onDecoded (decode s.params.codes c.raw) (fun i => begin i { s with calls := rest })
  | [] => .next (withSeq .sampleReset (sampleCount (arrive s)))

/-- The tick that forms the iteration's word from `STATE` and the two samples and makes the transition (R69,
R130). -/
def tickTransition (s : State) : Result :=
  onDecoded (decode s.params.codes (.f4 (f4Bits s.state s.rb s.cb))) (fun i => begin i (withSeq .start s))

/-- One tick at event grain. -/
def tick (s : State) : Result :=
  unlessHalted s
    (match s.seq with
     | .start => tickStart s
     | .sampleReset => .next (withSeq .transition (sampleReset s))
     | .transition => tickTransition s
     | sq =>
       match eventNow s with
       | some e => .next (withSeq (seqNext s.params sq) (applyEvent e s))
       | none => .next s)

/-- Ticks until the operation in progress has ended, at most `fuel` of them. -/
def settle (fuel : Nat) (s : State) : Result :=
  match fuel with
  | 0 => .next s
  | k + 1 =>
    if s.seq = .start then .next s
    else
      match tick s with
      | .next t => settle k t
      | .fault r => .fault r
      | .refused r => .refused r

/-- More ticks than any operation has: two samples, a transition and the at most 116 events of a `RENDER`
(R121). -/
def settleFuel : Nat := 128

/-- The rest of the operation in progress. -/
def finishOperation (s : State) : Result := settle settleFuel s

/-- One whole operation at event grain: a tick, then the rest. -/
def operationByTicks (s : State) : Result :=
  match tick s with
  | .next t => finishOperation t
  | .fault r => .fault r
  | .refused r => .refused r

end Sys2Proof.Machine
end

