-- ==== Sys2Proof/Machine/Step.lean ====
section
/-! DEFINITION. One step: the next instruction, whole (R9, the coarse grain); a step taken inside an operation
finishes it. -/

namespace Sys2Proof.Machine

/-- One step of the machine.  A halted block takes none (R163). -/
def step (s : State) : Host.Outcome State Fault Refusal :=
  unlessHalted s
    (match s.seq with
     | .start => onDecoded (decode s.params.codes (nextFetch s).1) (fun i => exec i (nextFetch s).2)
     | _ => finishOperation s)

/-- `s` with an instruction of the opcode table where `step` takes its next one from. -/
def State.withFetchWord (s : State) (nbits w : Nat) : State := placeTableWord s nbits w

end Sys2Proof.Machine
end

