-- ==== Sys2Proof/Safety.lean ====
section
/-! DEFINITION. The terms in which claims about runs are stated: the idle lines, the invariant of the block, the
trace read as an instrumented harness reads it, and the expected events written out from the spec. -/

namespace Sys2Proof.Machine

/-! ### Lines and the invariant -/

/-- The lines between two operations: every digit off, clock and latch low (R27, R194, R210). -/
abbrev LinesIdle (s : State) : Prop :=
  s.digitEn = .const true ∧ s.clock = false ∧ s.latch = false

/-- The digit-enable levels that go with a position of the sequencer: only the position whose hold is in progress
is on (R117). -/
def digitEnAt : Seq → PerPosition Level
  | .render _ i .hold => (PerPosition.const true).set i false
  | .render _ i .disable => (PerPosition.const true).set i false
  | _ => .const true

/-- The clock is high only between its rise and its fall (R86). -/
def clockAt : Seq → Level
  | .shift _ _ (.clockLow _) => true
  | .render _ _ (.frame (.clockLow _)) => true
  | _ => false

/-- The latch is high only between its rise and its fall (R86). -/
def latchAt : Seq → Level
  | .shift _ _ .latchLow => true
  | .render _ _ (.frame .latchLow) => true
  | _ => false

/-- The invariant of the block (R26, R27, R117, R146, R210), at every position of the sequencer. -/
abbrev BlockInv (s : State) : Prop :=
  s.state ≠ .reserved ∧ (s.state = .resetting → s.count = 0) ∧
  s.digitEn = digitEnAt s.seq ∧ s.clock = clockAt s.seq ∧ s.latch = latchAt s.seq

/-- The level of an output line. -/
def levelOf (s : State) : OutLine → Level
  | .data => s.data
  | .clock => s.clock
  | .latch => s.latch
  | .digitEn i => s.digitEn.get i

/-- How many digit lines are at 0. -/
def digitsOn (d : PerPosition Level) : Nat :=
  (Position.all.filter (fun i => !d.get i)).length

/-! ### Runs -/

/-- `k` steps (Host.Core.run of this machine). -/
def runSteps : Nat → State → Result
  | 0, s => .next s
  | k + 1, s =>
    match step s with
    | .next t => runSteps k t
    | .fault r => .fault r
    | .refused r => .refused r

/-- The next step is an iteration whose two samples are `rb` and `cb`. -/
abbrev IterationStarts (s : State) (rb cb : Level) : Prop :=
  s.fault = .none ∧ s.seq = .start ∧ s.calls = [] ∧ (arrive s).btnReset = rb ∧ (arrive s).btnCount = cb

/-! ### The events the spec lists -/

/-- The levels put on `DATA` by a frame, in order: most significant bit first (R83). -/
def msbSequence (p : Pattern) : List Level :=
  [p.getLsbD 7, p.getLsbD 6, p.getLsbD 5, p.getLsbD 4, p.getLsbD 3, p.getLsbD 2, p.getLsbD 1, p.getLsbD 0]

/-- The levels put on `DATA` by a frame, in order: least significant bit first (R84). -/
def lsbSequence (p : Pattern) : List Level :=
  [p.getLsbD 0, p.getLsbD 1, p.getLsbD 2, p.getLsbD 3, p.getLsbD 4, p.getLsbD 5, p.getLsbD 6, p.getLsbD 7]

/-- The levels put on `DATA` by a frame of either order, in order (R43). -/
def sentSequence : BitOrder → Pattern → List Level
  | .msbFirst => msbSequence
  | .lsbFirst => lsbSequence

/-- The levels put on `DATA` by a frame `w` bits wide, in order: the low `w` bits of the pattern, the model's own
choice for a width below eight (DESIGN CHOICE, log entry 3). -/
def sentBits (bo : BitOrder) (w : PatternWidth) (p : Pattern) : List Level :=
  match bo with
  | .msbFirst => (msbSequence p).drop (8 - w.toNat)
  | .lsbFirst => (lsbSequence p).take w.toNat

/-- The row `SHIFTOUT.MSB` or `SHIFTOUT.LSB`. -/
def shiftoutOf : BitOrder → Pattern → Instr
  | .msbFirst, p => .shiftoutMsb p
  | .lsbFirst, p => .shiftoutLsb p

/-- The row `RENDER.MSB` or `RENDER.LSB`. -/
def renderOf : BitOrder → Nat → Instr
  | .msbFirst, n => .renderMsb n
  | .lsbFirst, n => .renderLsb n

/-- The row `ENCODE.<d>` of a digit. -/
def encodeOf : Fin 10 → Instr
  | 0 => .encode0
  | 1 => .encode1
  | 2 => .encode2
  | 3 => .encode3
  | 4 => .encode4
  | 5 => .encode5
  | 6 => .encode6
  | 7 => .encode7
  | 8 => .encode8
  | 9 => .encode9

/-- Is the row one of `ITERATE`'s? -/
def isIteration (i : Instr) : Bool := (encode tableCodes i).format == .f4

/-- Is the row one of `ENCODE`'s? -/
def isEncode (i : Instr) : Bool := (encode tableCodes i).format == .e4

/-- Is the row one of `SHIFTOUT`'s? -/
def isShiftout (i : Instr) : Bool := (encode tableCodes i).format == .s10

/-- The events of a frame with a given `DATA` sequence (R68; `F(s)` of 95_test_vectors.md V42). -/
def frameOf (bits : List Level) : List Event :=
  bits.flatMap (fun b => [.write .data b, .write .clock true, .write .clock false]) ++
    [.write .latch true, .write .latch false]

/-- The ten entries of the segment table (R101). -/
def segTable (ps : Params) : List Pattern :=
  [ps.seg0, ps.seg1, ps.seg2, ps.seg3, ps.seg4, ps.seg5, ps.seg6, ps.seg7, ps.seg8, ps.seg9]

/-- The sizes of R6 that the source gives: four positions, and patterns and frames of eight bits. -/
abbrev FullSize (ps : Params) : Prop := ps.numDigits.toNat = 4 ∧ ps.patternWidth.toNat = 8

/-- The values of R6 that the source gives exactly, and the codes of D2: the configuration of this hardware, whatever
the open parameters are.  An operation keeps them; obligation ConfigurationIsThisHardware. -/
abbrev ThisHardware (ps : Params) : Prop :=
  ps.codes = ⟨0, 1⟩ ∧ ps.displayBitOrder = .lsbFirst ∧ ps.repeatThreshold = 30 ∧ ps.radix.toNat = 10 ∧
  ps.seg0 = 0xFC#8 ∧ ps.seg1 = 0x60#8 ∧ ps.seg9 = 0xE6#8 ∧ FullSize ps

/-- The power of the radix at a position: 1, 10, 100, 1000 for radix ten (R45). -/
def weightOf (r : Radix) : Position → Nat
  | .ones => 1
  | .tens => r.toNat
  | .hundreds => r.toNat * r.toNat
  | .thousands => r.toNat * r.toNat * r.toNat

/-- The digit of `n` at a position: `(n div 10^i) mod 10` for radix ten (R45, R111). -/
def digitAt (r : Radix) (n : Nat) (i : Position) : Nat := n / weightOf r i % r.toNat

/-- `DIG[0..3]` for a number `n` (R111). -/
def digitsOf (r : Radix) (n : Nat) : PerPosition (Fin 10) where
  ones := Fin.ofNat 10 (digitAt r n .ones)
  tens := Fin.ofNat 10 (digitAt r n .tens)
  hundreds := Fin.ofNat 10 (digitAt r n .hundreds)
  thousands := Fin.ofNat 10 (digitAt r n .thousands)

/-- The pattern of the digit of `n` at a position. -/
def patternAt (ps : Params) (n : Nat) (i : Position) : Pattern := (segTable ps).getD (digitAt ps.radix n i) 0

/-- The events of a `RENDER` at one position, from the levels of its frame (R112). -/
def positionEvents (ps : Params) (bits : List Level) (i : Position) : List Event :=
  frameOf bits ++ [.write (.digitEn i) false, .delay ps.tIllum, .write (.digitEn i) true]

/-- The events of a whole `RENDER` of `n`, with the configured number of positions and bits (R6, R112; smaller
sizes are the model's own, log entry 3). -/
def renderTrace (bo : BitOrder) (ps : Params) (n : Nat) : List Event :=
  (Position.all.take ps.numDigits.toNat).flatMap (fun i =>
    positionEvents ps (sentBits bo ps.patternWidth (patternAt ps n i)) i)

/-- How many events a `RENDER` has: for each position three for each bit cell, two of the latch, the enable, the hold
and the disable (R91, R121); 116 for four positions of eight bits (smaller
sizes: DESIGN CHOICE, log entry 3). -/
def eventsPerRender (ps : Params) : Nat := ps.numDigits.toNat * (3 * ps.patternWidth.toNat + 5)

/-! ### The trace as a harness reads it -/

/-- The digit-enable levels after a trace, from the levels before it (00_scope.md section 5, Trace). -/
def replayDigits (d : PerPosition Level) : List Event → PerPosition Level
  | [] => d
  | .write (.digitEn i) v :: rest => replayDigits (d.set i v) rest
  | _ :: rest => replayDigits d rest

/-- What a harness on the lines to the external register knows: the three levels and the two stages. -/
structure Probe where
  data : Level
  clock : Level
  latch : Level
  sr : Pattern
  q : Pattern
deriving DecidableEq, Repr

/-- The harness follows one event (R24). -/
def Probe.follow (m : Probe) : Event → Probe
  | .write .data v => { m with data := v }
  | .write .clock v =>
    { m with
      clock := v
      sr := if m.clock = false ∧ v = true then m.sr <<< 1 ||| (BitVec.ofBool m.data).setWidth 8 else m.sr }
  | .write .latch v => { m with latch := v, q := if m.latch = false ∧ v = true then m.sr else m.q }
  | .write (.digitEn _) _ => m
  | .delay _ => m

/-- Each position as it is lit, with the pins at that moment (R118, R119). -/
def shownBy (m : Probe) : List Event → List (Position × Pattern)
  | [] => []
  | .write (.digitEn i) false :: rest => (i, m.q) :: shownBy m rest
  | e :: rest => shownBy (m.follow e) rest

/-- The harness attached to a state. -/
def probeOf (s : State) : Probe := ⟨s.data, s.clock, s.latch, s.sr, s.q⟩

/-- The events of each kind in a trace: writes of the shifter's lines, writes of the digit lines, delays (R121). -/
def shifterWrites (es : List Event) : Nat :=
  (es.filter (fun e => match e with
    | .write .data _ => true
    | .write .clock _ => true
    | .write .latch _ => true
    | _ => false)).length

/-- Writes of the digit-enable lines in a trace. -/
def digitWrites (es : List Event) : Nat :=
  (es.filter (fun e => match e with
    | .write (.digitEn _) _ => true
    | _ => false)).length

/-- Delays in a trace. -/
def delays (es : List Event) : Nat :=
  (es.filter (fun e => match e with
    | .delay _ => true
    | _ => false)).length

end Sys2Proof.Machine
end

