-- ==== Sys2Proof/Certificates/Slice0/Obligations.lean ====
section
/-! DEFINITION. The statements about the model, one for each entry of OBLIGATIONS.json. -/

open Sys2Proof Sys2Proof.Machine

/-! ### Decode words -/

/-- Words written out from the encodings of R71 (vectors V2, V9, V30b, V41, V45, V48d, V49d, V49e of
95_test_vectors.md) decode to the rows they stand for. -/
def Obligations.SampleWordsDecode : Prop :=
  decode tableCodes (.s10 0b0111111100) = .ok (.shiftoutLsb 0xFC#8) ∧
  decode tableCodes (.s10 0b1011111100) = .ok (.shiftoutBadorder 2 0xFC#8) ∧
  decode tableCodes (.e4 0b1011) = .ok (.encodeRangeA 11) ∧
  decode tableCodes (.e4 0b1001) = .ok .encode9 ∧
  decode tableCodes (.r2 0b01 9019) = .ok (.renderLsb 9019) ∧
  decode tableCodes (.r2 0b10 9019) = .ok (.renderBadorder 2 9019) ∧
  decode tableCodes (.f4 0b0011) = .ok (.iterIdleCount true) ∧
  decode tableCodes (.f4 0b0111) = .ok (.iterCountingHold true) ∧
  decode tableCodes (.f4 0b1011) = .ok (.iterResettingHold true) ∧
  decode tableCodes (.f4 0b1101) = .ok (.iterBadstate false true)

/-- Decoding the word of a well-formed instruction gives it back: no bit of an encoding is dropped, whatever the codes
of the two bit orders are (R61, R70, R71). -/
def Obligations.DecodeOfEncode : Prop :=
  ∀ (c : OrderCodes) (i : Instr), i.wellFormed c = true → decode c (encode c i) = .ok i

/-- Whatever decodes is well formed and has that word as its only one (R61, R71). -/
def Obligations.EncodeOfDecode : Prop :=
  ∀ (c : OrderCodes) (r : RawWord) (i : Instr), decode c r = .ok i → i.wellFormed c = true ∧ encode c i = r

/-- Which code names which order (R61): the two codes of the configuration and no other, in the operand test and in
the word's field. -/
def Obligations.OrderCodesComeFromConfiguration : Prop :=
  ∀ (c : OrderCodes) (bo : Nat) (p : Pattern) (n : Nat), c.distinct →
    (orderOfCode c bo = some .msbFirst ↔ bo = c.msbFirst) ∧
    (orderOfCode c bo = some .lsbFirst ↔ bo = c.lsbFirst) ∧
    (bo < 4 →
      (decode c (.s10 (0x100 * bo + p.toNat)) = .ok (.shiftoutMsb p) ↔ bo = c.msbFirst) ∧
      (decode c (.s10 (0x100 * bo + p.toNat)) = .ok (.shiftoutLsb p) ↔ bo = c.lsbFirst) ∧
      (decode c (.s10 (0x100 * bo + p.toNat)) = .ok (.shiftoutBadorder bo p) ↔
        bo ≠ c.msbFirst ∧ bo ≠ c.lsbFirst) ∧
      (decode c (.r2 bo n) = .ok (.renderMsb n) ↔ bo = c.msbFirst) ∧
      (decode c (.r2 bo n) = .ok (.renderLsb n) ↔ bo = c.lsbFirst) ∧
      (decode c (.r2 bo n) = .ok (.renderBadorder bo n) ↔ bo ≠ c.msbFirst ∧ bo ≠ c.lsbFirst))

/-- Every word of a format matches exactly one row of the opcode table, the row of the instruction it decodes to,
and (the model's own rule, log entry 22) a number with more bits than the format is rejected by name (R71). -/
def Obligations.EveryWordMatchesOneRow : Prop :=
  (∀ r : RawWord, r.bits < 2 ^ r.format.width →
    ∃ (i : Instr) (row : OpcodeRow),
      decode tableCodes r = .ok i ∧ opcodeRows.filter (fun x => x.hits r) = [row] ∧ row.mnemonic = i.mnemonic) ∧
  (∀ r : RawWord, ¬ r.bits < 2 ^ r.format.width →
    decode tableCodes r = .error (.wordTooWide r.format r.bits))

/-! ### The step -/

/-- A step of a running block at the start of an operation runs the decoded instruction: that of the first directly
driven word, which leaves the queue (the model's own form, log entry 5), or without one that of the word formed from
`STATE` and the two button levels.  A driven word that does not decode, a number with more bits than its format, is
refused by name (the model's own rule, log entry 22). -/
def Obligations.StepRunsDecodedInstruction : Prop :=
  ∀ s : State, s.fault = .none → s.seq = .start →
    (∀ c rest i, s.calls = c :: rest → decode s.params.codes c.raw = .ok i →
      step s = exec i { s with calls := rest }) ∧
    (∀ c rest e, s.calls = c :: rest → decode s.params.codes c.raw = .error e →
      step s = .refused (.badWord e)) ∧
    (∀ i, s.calls = [] →
      decode s.params.codes
        (.f4 (4 * s.state.code + 2 * (arrive s).btnReset.toNat + (arrive s).btnCount.toNat)) = .ok i →
      step s = exec i (arrive s))

/-- The levels an iteration samples are the next ones of the stimulus, and arriving changes nothing but the button
lines and the model's own record of what is left (R17, R75). -/
def Obligations.StimulusReachesButtons : Prop :=
  (∀ (s : State) (x : Sample) (rest : List Sample), s.stimulus = x :: rest →
    arrive s = { s with btnReset := x.rb, btnCount := x.cb, stimulus := rest }) ∧
  (∀ s : State, s.stimulus = [] →
    ∃ rb cb, arrive s = { s with btnReset := rb, btnCount := cb, draws := s.draws + 1 })

/-- A word of the opcode table placed where the step fetches is the instruction the next step runs (the model's own
rule, log entries 6 and 7), in a block with the table's two codes. -/
def Obligations.StepRunsPlacedWord : Prop :=
  ∀ (s : State) (nbits w : Nat) (i : Instr), s.fault = .none → s.params.codes = tableCodes →
    decodeTableWord nbits w = some i →
    ∃ u, step (s.withFetchWord nbits w) = exec i u ∧
      (isIteration i = false → u = { s with seq := .start }) ∧
      (isIteration i = true → ∃ st rb cb, encode tableCodes i = .f4 (4 * st.code + 2 * rb.toNat + cb.toNat) ∧
        u = { s with seq := .start, calls := [], state := st, btnReset := rb, btnCount := cb })

/-! ### SHIFTOUT -/

/-- `SHIFTOUT.MSB` (R83): the frame, the lines after it, the external register, and nothing else.  Frames are eight
bits wide, as on this hardware (R6); of every width ConfiguredSizes speaks. -/
def Obligations.ShiftoutMsbResult : Prop :=
  (∀ p : Pattern, decode tableCodes (.s10 p.toNat) = .ok (.shiftoutMsb p)) ∧
  (∀ (p : Pattern) (s : State),
    s.params.patternWidth.toNat = 8 → s.fault = .none → s.clock = false → s.latch = false →
    exec (.shiftoutMsb p) s =
      .next { s with
        data := p.getLsbD 0, clock := false, latch := false, sr := p, q := p,
        trace := s.trace ++ frameOf [p.getLsbD 7, p.getLsbD 6, p.getLsbD 5, p.getLsbD 4, p.getLsbD 3,
          p.getLsbD 2, p.getLsbD 1, p.getLsbD 0] })

/-- `SHIFTOUT.LSB` (R84): the frame, the lines after it, the external register, and nothing else.  The two codes of
the configuration are distinct, as the spec asks, and frames are eight bits wide, as on this hardware (R6). -/
def Obligations.ShiftoutLsbResult : Prop :=
  (∀ p : Pattern, decode tableCodes (.s10 (0x100 + p.toNat)) = .ok (.shiftoutLsb p)) ∧
  (∀ (p : Pattern) (s : State),
    s.params.patternWidth.toNat = 8 → s.params.codes.distinct → s.fault = .none → s.clock = false →
    s.latch = false →
    exec (.shiftoutLsb p) s =
      .next { s with
        data := p.getLsbD 7, clock := false, latch := false, sr := rev8 p, q := rev8 p,
        trace := s.trace ++ frameOf [p.getLsbD 0, p.getLsbD 1, p.getLsbD 2, p.getLsbD 3, p.getLsbD 4,
          p.getLsbD 5, p.getLsbD 6, p.getLsbD 7] }) ∧
  (∀ (p : Pattern) (i : Nat), i < 8 → (rev8 p).getLsbD i = p.getLsbD (7 - i))

/-- A frame of eight bits from any levels of the lines: the same events and the same lines after it.  A clock that was
already high gives no first edge, so the first bit is lost and a bit of the old contents stays; a latch that was already high
gives no edge at all (R210, vector V65).  Levels other than the resting ones are no state of the block (U21); that the
rules run there as they are is the model's own (log entry 20). -/
def Obligations.FrameFromAnyLevels : Prop :=
  ∀ (bo : BitOrder) (p : Pattern) (s : State),
    s.params.patternWidth.toNat = 8 → s.params.codes.distinct → s.fault = .none →
    ∃ sr', exec (shiftoutOf bo p) s =
        .next { s with
          data := (sentSequence bo p).getD 7 false, clock := false, latch := false,
          sr := sr', q := if s.latch then s.q else sr',
          trace := s.trace ++ frameOf (sentSequence bo p) } ∧
      (∀ k, k < 7 → sr'.getLsbD k = (onPins bo p).getLsbD k) ∧
      sr'.getLsbD 7 = (if s.clock then s.sr.getLsbD 0 else (onPins bo p).getLsbD 7)

/-- A bit-order code that is neither of the two, so neither 0 nor 1 on this hardware (R61, R85): `FAULT` is set with no
line written and nothing else changed, and after it nothing runs. -/
def Obligations.BadOrderHaltsShiftout : Prop :=
  ∀ (bo : Nat) (p : Pattern) (s : State),
    bo ≠ s.params.codes.msbFirst → bo ≠ s.params.codes.lsbFirst → s.fault = .none →
    exec (.shiftoutBadorder bo p) s = .next { s with fault := .configError bo } ∧
    (∀ i : Instr, exec i { s with fault := .configError bo } = .fault (.configErrorHalt bo)) ∧
    step { s with fault := .configError bo } = .fault (.configErrorHalt bo)

/-- Round trip (R88, S5): a pattern sent most significant first and its reversal sent least significant first leave
the same state, external register and trace included, for frames of eight bits. -/
def Obligations.RoundTripOfReversal : Prop :=
  ∀ (p : Pattern) (s : State), s.params.patternWidth.toNat = 8 → s.params.codes.distinct →
    exec (.shiftoutLsb (rev8 p)) s = exec (.shiftoutMsb p) s

/-- The latch commits the frame at once (R89, R204): the output stage keeps its value through the eight cells and
is the whole new pattern from the latch's rise on. -/
def Obligations.LatchCommitsAtOnce : Prop :=
  ∀ (bo : BitOrder) (p : Pattern) (s : State) (k : Nat), s.clock = false → s.latch = false →
    (k ≤ 24 → (runEvents ((frameOf (sentSequence bo p)).take k) s).q = s.q) ∧
    (25 ≤ k → (runEvents ((frameOf (sentSequence bo p)).take k) s).q = onPins bo p)

/-- `DATA` is set before the clock rises and not changed until after it has fallen (R202): through the three events
of cell `j` it holds the bit of that cell, and the clock is high after the second and low after the third. -/
def Obligations.DataSteadyAroundClock : Prop :=
  ∀ (bo : BitOrder) (p : Pattern) (s : State) (j m : Nat), j < 8 → 1 ≤ m → m ≤ 3 →
    (runEvents ((frameOf (sentSequence bo p)).take (3 * j + m)) s).data = (sentSequence bo p).getD j false ∧
    (m = 2 → (runEvents ((frameOf (sentSequence bo p)).take (3 * j + m)) s).clock = true) ∧
    (m = 3 → (runEvents ((frameOf (sentSequence bo p)).take (3 * j + m)) s).clock = false)

/-! ### ENCODE -/

/-- `ENCODE` of a digit in range (R102): the table's entry is returned and nothing else is written; the entries 0, 1
and 9 are the source's, and no entry of the default table lights the decimal point. -/
def Obligations.EncodeReturnsEntry : Prop :=
  (∀ (d : Fin 10) (s : State), s.fault = .none →
    decode tableCodes (.e4 d.val) = .ok (encodeOf d) ∧
    exec (encodeOf d) s = .next { s with returned := some ((segTable s.params).getD d.val 0) }) ∧
  (∀ s : State, ThisHardware s.params → s.fault = .none →
    exec .encode0 s = .next { s with returned := some 0xFC#8 } ∧
    exec .encode1 s = .next { s with returned := some 0x60#8 } ∧
    exec .encode9 s = .next { s with returned := some 0xE6#8 }) ∧
  (∀ d : Fin 10, ((segTable defaultParams).getD d.val 0).getLsbD 0 = false)

/-- `ENCODE` of a digit outside 0..9 (R103): `FAULT` is set with the digit, nothing is returned, nothing else is
changed. -/
def Obligations.DigitOutOfRangeHalts : Prop :=
  ∀ (d : Nat) (s : State), 9 < d → s.fault = .none →
    exec (.encodeRangeA d) s = .next { s with fault := .digitRange d } ∧
    exec (.encodeRangeB d) s = .next { s with fault := .digitRange d } ∧
    (∀ i : Instr, exec i { s with fault := .digitRange d } = .fault (.digitRangeHalt d)) ∧
    step { s with fault := .digitRange d } = .fault (.digitRangeHalt d)

/-! ### RENDER -/

/-- `RENDER` with either order (R112): its words, its 116 events, the digits, the lines and the external register after
it, and nothing else.  Four positions and eight bits, as on this hardware (R6); the radix is the configuration's.
Levels of the lines other than the
resting ones are no state of the block (U19, U21, V65); that the rules run there as they are is the model's own (log
entry 20). -/
def Obligations.RenderResult : Prop :=
  (∀ n, decode tableCodes (.r2 0b00 n) = .ok (.renderMsb n) ∧
    decode tableCodes (.r2 0b01 n) = .ok (.renderLsb n)) ∧
  ∀ (bo : BitOrder) (n : Nat) (s : State), FullSize s.params → s.params.codes.distinct → s.fault = .none →
    exec (renderOf bo n) s =
      .next { s with
        dig := digitsOf s.params.radix n,
        data := (sentSequence bo (patternAt s.params n .thousands)).getD 7 false,
        clock := false, latch := false, digitEn := .const true,
        sr := onPins bo (patternAt s.params n .thousands),
        q := onPins bo (patternAt s.params n .thousands),
        trace := s.trace ++ renderTrace bo s.params n }

/-- The decomposition is decimal (R45, R111): on this hardware the digits of `n` are its last four decimal digits, and
the pattern of a position is the table's entry of its digit. -/
def Obligations.DecompositionIsDecimal : Prop :=
  ∀ (ps : Params) (n : Nat), ThisHardware ps →
    ((digitsOf ps.radix n).ones.val = n % 10 ∧ (digitsOf ps.radix n).tens.val = n / 10 % 10 ∧
      (digitsOf ps.radix n).hundreds.val = n / 100 % 10 ∧ (digitsOf ps.radix n).thousands.val = n / 1000 % 10) ∧
    (∀ i, patternAt ps n i = (segTable ps).getD ((digitsOf ps.radix n).get i).val 0) ∧
    (∀ s : State, s.params = ps → (decompose n s).dig = digitsOf ps.radix n)

/-- `RENDER` with a code of neither order (R116): the decomposition happens, the first frame takes the fault, no line
is written. -/
def Obligations.BadOrderHaltsRender : Prop :=
  ∀ (bo n : Nat) (s : State),
    bo ≠ s.params.codes.msbFirst → bo ≠ s.params.codes.lsbFirst → s.fault = .none →
    exec (.renderBadorder bo n) s = .next { s with dig := digitsOf s.params.radix n, fault := .configError bo }

/-- Only the low four digits are rendered (R113), in every form of `RENDER`: `n mod 10000` on this hardware. -/
def Obligations.RenderTruncates : Prop :=
  ∀ (n m : Nat) (s : State), m = n % s.params.radix.toNat ^ 4 →
    exec (.renderMsb n) s = exec (.renderMsb m) s ∧
    exec (.renderLsb n) s = exec (.renderLsb m) s ∧
    (∀ bo, exec (.renderBadorder bo n) s = exec (.renderBadorder bo m) s) ∧
    (ThisHardware s.params → m = n % 10000)

/-- One digit at a time (R26, R117): in the trace that a step adds, started with the lines as the invariant has them,
at most one digit-enable line is active after every event. -/
def Obligations.OneDigitAtATime : Prop :=
  ∀ (s t : State) (es : List Event), BlockInv s → step s = .next t → t.trace = s.trace ++ es →
    ∀ k, digitsOn (replayDigits s.digitEn (es.take k)) ≤ 1

/-- Read-back (R118, R119): a harness on the lines sees each position lit once, ones to thousands, with its digit's
pattern on the pins; and when the ten entries are distinct the digits of `n` are recovered from the patterns. -/
def Obligations.RenderedDigitsReadBack : Prop :=
  ∀ (bo : BitOrder) (n : Nat) (s : State),
    FullSize s.params → s.params.codes.distinct → s.fault = .none → s.clock = false → s.latch = false →
    (∃ (t : State) (es : List Event), exec (renderOf bo n) s = .next t ∧ t.trace = s.trace ++ es ∧
      shownBy (probeOf s) es =
        Position.all.map (fun i => (i, onPins bo (patternAt s.params n i)))) ∧
    ((segTable s.params).Nodup → ∀ (i : Position) (d : Nat), d < 10 →
      (onPins bo ((segTable s.params).getD d 0) = onPins bo (patternAt s.params n i) ↔ d = digitAt s.params.radix n i))

/-- The counts of one `RENDER` (R91, R121): with four positions of eight bits 104 writes of the shifter's lines, 8 of the
digit lines, 4 delays, 116 events.  The counts for smaller sizes are the model's own choice (DESIGN CHOICE, log
entry 3). -/
def Obligations.RenderEventCounts : Prop :=
  ∀ (bo : BitOrder) (n : Nat) (s : State), s.fault = .none →
    ∃ (t : State) (es : List Event), exec (renderOf bo n) s = .next t ∧ t.trace = s.trace ++ es ∧
      shifterWrites es = s.params.numDigits.toNat * (3 * s.params.patternWidth.toNat + 2) ∧
      digitWrites es = 2 * s.params.numDigits.toNat ∧ delays es = s.params.numDigits.toNat ∧
      es.length = eventsPerRender s.params ∧
      (FullSize s.params → shifterWrites es = 104 ∧ digitWrites es = 8 ∧ delays es = 4 ∧ es.length = 116)

/-- The sizes are the configuration's: R6 makes `NUM_DIGITS` and `PATTERN_WIDTH` parameters and gives each one value, 4
and 8.  What smaller sizes do is the model's own choice and no rule of the spec (DESIGN CHOICE, unsafe, log entry 3): a
frame sends the low `PATTERN_WIDTH` bits of the pattern, a `RENDER` visits the first `NUM_DIGITS` positions and touches
no other digit line, and the ranges are 1 to 4 and 1 to 8.  Only the last clause, under `FullSize`, is the spec's: with
four positions of eight bits the events are those of R83, R84 and R112, written out. -/
def Obligations.ConfiguredSizes : Prop :=
  ∀ (bo : BitOrder) (p : Pattern) (n : Nat) (s : State), s.params.codes.distinct → s.fault = .none →
    (∃ t, exec (shiftoutOf bo p) s = .next t ∧ t.fault = .none ∧ t.clock = false ∧ t.latch = false ∧
      t.digitEn = s.digitEn ∧ t.trace = s.trace ++ frameOf (sentBits bo s.params.patternWidth p)) ∧
    (∃ t, exec (renderOf bo n) s = .next t ∧ t.fault = .none ∧ t.clock = false ∧ t.latch = false ∧
      (∀ i ∈ Position.all.take s.params.numDigits.toNat, t.digitEn.get i = true) ∧
      (∀ i ∈ Position.all.drop s.params.numDigits.toNat, t.digitEn.get i = s.digitEn.get i) ∧
      t.trace = s.trace ++ renderTrace bo s.params n) ∧
    (sentBits bo s.params.patternWidth p).length = s.params.patternWidth.toNat ∧
    (∀ k, k < s.params.patternWidth.toNat →
      (sentBits .msbFirst s.params.patternWidth p).getD k false =
        p.getLsbD (s.params.patternWidth.toNat - 1 - k) ∧
      (sentBits .lsbFirst s.params.patternWidth p).getD k false = p.getLsbD k) ∧
    (FullSize s.params →
      sentBits bo s.params.patternWidth p = sentSequence bo p ∧
      renderTrace bo s.params n =
        Position.all.flatMap (fun i =>
          frameOf (sentSequence bo (patternAt s.params n i)) ++
            [.write (.digitEn i) false, .delay s.params.tIllum, .write (.digitEn i) true]))

/-- With the frames of the display path each segment of the pattern reaches its own segment of the display (R104,
R105; the naming of the segments is general knowledge of the spec's, D25). -/
def Obligations.SegmentsLightFromPattern : Prop :=
  ∀ (s : State) (i : Position) (p : Pattern) (sg : Segment),
    s.digitEn = (PerPosition.const true).set i false → s.q = rev8 p →
    lit s i sg = p.getLsbD (segmentBit sg) ∧ (∀ j, j ≠ i → visible s j = none)

/-! ### ITERATE -/

/-- `ITER.IDLE_NONE` (R130, R131).  That the row records the samples its word carries, and runs in whatever `STATE` it
is given, is the model's own form (log entries 11 and 23); the same of the six rows below. -/
def Obligations.IdleNoneKeepsCount : Prop :=
  decode tableCodes (.f4 0b0000) = .ok .iterIdleNone ∧
  (∀ s : State, IterationStarts s false false → s.state = .idle → step s = exec .iterIdleNone (arrive s)) ∧
  (∀ s : State, s.fault = .none →
    exec .iterIdleNone s = exec (renderOf s.params.displayBitOrder s.count) { s with rb := false, cb := false } ∧
    ∃ t, exec .iterIdleNone s = .next t ∧ t.count = s.count ∧ t.pd = s.pd ∧ t.state = s.state ∧
      t.fault = .none ∧
      (ThisHardware s.params → t.trace = s.trace ++ renderTrace .lsbFirst s.params s.count))

/-- `ITER.IDLE_COUNT` (R132). -/
def Obligations.IdleCountIncrements : Prop :=
  decode tableCodes (.f4 0b0001) = .ok (.iterIdleCount false) ∧
  decode tableCodes (.f4 0b0011) = .ok (.iterIdleCount true) ∧
  (∀ (s : State) (rb : Level), IterationStarts s rb true → s.state = .idle →
    step s = exec (.iterIdleCount rb) (arrive s)) ∧
  (∀ (s : State) (rb : Level), s.fault = .none →
    exec (.iterIdleCount rb) s =
      exec (renderOf s.params.displayBitOrder (s.count + 1))
        { s with rb := rb, cb := true, count := s.count + 1, pd := 0, state := .counting } ∧
    ∃ t, exec (.iterIdleCount rb) s = .next t ∧ t.count = s.count + 1 ∧ t.pd = 0 ∧ t.state = .counting ∧
      t.fault = .none ∧
      (ThisHardware s.params → t.trace = s.trace ++ renderTrace .lsbFirst s.params (s.count + 1)))

/-- `ITER.IDLE_RESET` (R134). -/
def Obligations.IdleResetZeroes : Prop :=
  decode tableCodes (.f4 0b0010) = .ok .iterIdleReset ∧
  (∀ s : State, IterationStarts s true false → s.state = .idle → step s = exec .iterIdleReset (arrive s)) ∧
  (∀ s : State, s.fault = .none →
    exec .iterIdleReset s =
      exec (renderOf s.params.displayBitOrder 0) { s with rb := true, cb := false, count := 0, state := .resetting } ∧
    ∃ t, exec .iterIdleReset s = .next t ∧ t.count = 0 ∧ t.pd = s.pd ∧ t.state = .resetting ∧
      t.fault = .none ∧
      (ThisHardware s.params → t.trace = s.trace ++ renderTrace .lsbFirst s.params 0))

/-- `ITER.COUNTING_RELEASE` (R135). -/
def Obligations.CountingReleaseReturnsToIdle : Prop :=
  decode tableCodes (.f4 0b0100) = .ok (.iterCountingRelease false) ∧
  decode tableCodes (.f4 0b0110) = .ok (.iterCountingRelease true) ∧
  (∀ (s : State) (rb : Level), IterationStarts s rb false → s.state = .counting →
    step s = exec (.iterCountingRelease rb) (arrive s)) ∧
  (∀ (s : State) (rb : Level), s.fault = .none →
    exec (.iterCountingRelease rb) s =
      exec (renderOf s.params.displayBitOrder s.count) { s with rb := rb, cb := false, state := .idle } ∧
    ∃ t, exec (.iterCountingRelease rb) s = .next t ∧ t.count = s.count ∧ t.pd = s.pd ∧ t.state = .idle ∧
      t.fault = .none ∧
      (ThisHardware s.params → t.trace = s.trace ++ renderTrace .lsbFirst s.params s.count))

/-- `ITER.COUNTING_HOLD` (R136). -/
def Obligations.CountingHoldRepeats : Prop :=
  decode tableCodes (.f4 0b0101) = .ok (.iterCountingHold false) ∧
  decode tableCodes (.f4 0b0111) = .ok (.iterCountingHold true) ∧
  (∀ (s : State) (rb : Level), IterationStarts s rb true → s.state = .counting →
    step s = exec (.iterCountingHold rb) (arrive s)) ∧
  (∀ (s : State) (rb : Level) (c : Nat), s.fault = .none →
    c = (if s.pd + 1 ≥ s.params.repeatThreshold then s.count + 1 else s.count) →
    exec (.iterCountingHold rb) s =
      exec (renderOf s.params.displayBitOrder c) { s with rb := rb, cb := true, count := c, pd := s.pd + 1 } ∧
    ∃ t, exec (.iterCountingHold rb) s = .next t ∧ t.count = c ∧
      (ThisHardware s.params → c = if s.pd + 1 ≥ 30 then s.count + 1 else s.count) ∧
      t.pd = s.pd + 1 ∧ t.state = s.state ∧ t.fault = .none ∧
      (ThisHardware s.params → t.trace = s.trace ++ renderTrace .lsbFirst s.params c))

/-- `ITER.RESETTING_RELEASE` (R137). -/
def Obligations.ResettingReleaseReturnsToIdle : Prop :=
  decode tableCodes (.f4 0b1000) = .ok (.iterResettingRelease false) ∧
  decode tableCodes (.f4 0b1001) = .ok (.iterResettingRelease true) ∧
  (∀ (s : State) (cb : Level), IterationStarts s false cb → s.state = .resetting →
    step s = exec (.iterResettingRelease cb) (arrive s)) ∧
  (∀ (s : State) (cb : Level), s.fault = .none →
    exec (.iterResettingRelease cb) s =
      exec (renderOf s.params.displayBitOrder s.count) { s with rb := false, cb := cb, state := .idle } ∧
    ∃ t, exec (.iterResettingRelease cb) s = .next t ∧ t.count = s.count ∧ t.pd = s.pd ∧ t.state = .idle ∧
      t.fault = .none ∧
      (ThisHardware s.params → t.trace = s.trace ++ renderTrace .lsbFirst s.params s.count))

/-- `ITER.RESETTING_HOLD` (R138). -/
def Obligations.ResettingHoldKeepsZero : Prop :=
  decode tableCodes (.f4 0b1010) = .ok (.iterResettingHold false) ∧
  decode tableCodes (.f4 0b1011) = .ok (.iterResettingHold true) ∧
  (∀ (s : State) (cb : Level), IterationStarts s true cb → s.state = .resetting →
    step s = exec (.iterResettingHold cb) (arrive s)) ∧
  (∀ (s : State) (cb : Level), s.fault = .none →
    exec (.iterResettingHold cb) s =
      exec (renderOf s.params.displayBitOrder 0) { s with rb := true, cb := cb, count := 0 } ∧
    ∃ t, exec (.iterResettingHold cb) s = .next t ∧ t.count = 0 ∧ t.pd = s.pd ∧ t.state = s.state ∧
      t.fault = .none ∧
      (ThisHardware s.params → t.trace = s.trace ++ renderTrace .lsbFirst s.params 0))

/-- `ITER.BADSTATE` (R71, R73): an iteration begun in the reserved state code is refused, no step.  That the decoder
answers the table's row and the row is what refuses is the model's reading (log entry 13). -/
def Obligations.ReservedStateRefused : Prop :=
  (∀ rb cb : Level, decode tableCodes (.f4 (12 + 2 * rb.toNat + cb.toNat)) = .ok (.iterBadstate rb cb)) ∧
  (∀ (s : State) (rb cb : Level), s.fault = .none →
    exec (.iterBadstate rb cb) s = .refused (.reservedState rb cb)) ∧
  (∀ (s : State) (rb cb : Level), IterationStarts s rb cb → s.state = .reserved →
    step s = .refused (.reservedState rb cb))

/-- Both buttons pressed in `IDLE` (R133; the spec's decision D5): the count button wins, the reset button is not
acted on. -/
def Obligations.BothPressedCountWins : Prop :=
  ∀ s : State, IterationStarts s true true → s.state = .idle →
    ∃ t, step s = .next t ∧ t.count = s.count + 1 ∧ t.state = .counting ∧ t.rb = true

/-- The samples a state ignores (R133, R139): with the other value of the ignored sample, the iteration ends in the
same state but for that sample's own copy. -/
def Obligations.IgnoredSamplesDoNotMatter : Prop :=
  ∀ (s t : State) (x y : Level),
    (exec (.iterIdleCount x) s = .next t → exec (.iterIdleCount y) s = .next { t with rb := y }) ∧
    (exec (.iterCountingRelease x) s = .next t → exec (.iterCountingRelease y) s = .next { t with rb := y }) ∧
    (exec (.iterCountingHold x) s = .next t → exec (.iterCountingHold y) s = .next { t with rb := y }) ∧
    (exec (.iterResettingRelease x) s = .next t → exec (.iterResettingRelease y) s = .next { t with cb := y }) ∧
    (exec (.iterResettingHold x) s = .next t → exec (.iterResettingHold y) s = .next { t with cb := y })

/-- What each operation leaves unchanged when it completes: the parameters, the inputs and `SEQ` by every one; the
application registers and the samples by every one but `ITERATE`; the result by every one but `ENCODE`; the digits and
the digit lines by `SHIFTOUT` and `ENCODE`; every line, the external register and the trace by `ENCODE`; and `FAULT`
changes only in the three forms that take a fault (R11 to R16, R80, R100, R110, R130). -/
def Obligations.EachOperationWritesOnlyItsOwn : Prop :=
  ∀ (i : Instr) (s t : State), exec i s = .next t →
    (t.params = s.params ∧ t.calls = s.calls ∧ t.stimulus = s.stimulus ∧ t.draws = s.draws ∧
      t.btnCount = s.btnCount ∧ t.btnReset = s.btnReset ∧ t.seq = s.seq) ∧
    (isIteration i = false →
      t.count = s.count ∧ t.pd = s.pd ∧ t.state = s.state ∧ t.cb = s.cb ∧ t.rb = s.rb) ∧
    (isEncode i = false → t.returned = s.returned) ∧
    (isShiftout i = true ∨ isEncode i = true → t.dig = s.dig ∧ t.digitEn = s.digitEn) ∧
    (isEncode i = true → t.data = s.data ∧ t.clock = s.clock ∧ t.latch = s.latch ∧ t.sr = s.sr ∧
      t.q = s.q ∧ t.trace = s.trace) ∧
    (t.fault = s.fault ∨
      (∃ bo p, i = .shiftoutBadorder bo p) ∨ (∃ bo n, i = .renderBadorder bo n) ∨
      (∃ d, i = .encodeRangeA d ∨ i = .encodeRangeB d))

/-! ### The counting laws -/

/-- The hold law (R141): a press that begins in `IDLE` and is held through `H` further iterations adds
`1 + max(0, H - 29)` to the count, whatever the reset button does meanwhile.  Pressed at the entry too, the count
button wins: the spec's decision D5 (log entry 16). -/
def Obligations.HoldLaw : Prop :=
  ∀ (s : State) (press : List Sample) (release : Sample) (rest : List Sample) (H : Nat),
    ThisHardware s.params → s.fault = .none → s.seq = .start → s.calls = [] → s.state = .idle →
    press.length = H + 1 → (∀ x ∈ press, x.cb = true) → release.cb = false →
    s.stimulus = press ++ release :: rest →
    ∃ t, runSteps (H + 2) s = .next t ∧ t.count = s.count + 1 + (H - 29) ∧ t.pd = H ∧ t.state = .idle ∧
      t.fault = .none ∧ t.stimulus = rest

/-- Short and long presses (R142): held for fewer than 30 iterations a press adds exactly one; held for 30 or more it
adds more than one, and a longer hold adds strictly more. -/
def Obligations.LongerHoldCountsMore : Prop :=
  ∀ (s : State) (H H' : Nat) (rest : List Sample),
    ThisHardware s.params → s.fault = .none → s.seq = .start → s.calls = [] → s.state = .idle →
    ∃ t t',
      runSteps (H + 2) { s with
        stimulus := List.replicate (H + 1) ⟨false, true⟩ ++ ⟨false, false⟩ :: rest } = .next t ∧
      runSteps (H' + 2) { s with
        stimulus := List.replicate (H' + 1) ⟨false, true⟩ ++ ⟨false, false⟩ :: rest } = .next t' ∧
      (H < 30 → t.count = s.count + 1) ∧ (30 ≤ H → s.count + 1 < t.count) ∧
      (29 ≤ H → H < H' → t.count < t'.count)

/-- The reset law (R144): from `IDLE`, the first iteration that samples reset alone zeroes the count, it stays zero
through every further iteration of the press, and through its release. -/
def Obligations.ResetLaw : Prop :=
  ∀ (s : State) (hold : List Sample) (release : Sample) (rest : List Sample),
    s.fault = .none → s.seq = .start → s.calls = [] → s.state = .idle →
    (∀ x ∈ hold, x.rb = true) → release.rb = false →
    s.stimulus = ⟨true, false⟩ :: (hold ++ release :: rest) →
    (∀ k, k ≤ hold.length → ∃ t, runSteps (k + 1) s = .next t ∧ t.count = 0 ∧ t.state = .resetting) ∧
    (∃ t, runSteps (hold.length + 2) s = .next t ∧ t.count = 0 ∧ t.state = .idle ∧ t.stimulus = rest)

/-- The graph of `STATE` (R139, R146): no step goes between `COUNTING` and `RESETTING`, and none enters the reserved
code. -/
def Obligations.NoEdgeBetweenHeldStates : Prop :=
  ∀ s t : State, step s = .next t →
    (s.state = .idle → t.state ≠ .reserved) ∧
    (s.state = .counting → t.state = .counting ∨ t.state = .idle) ∧
    (s.state = .resetting → t.state = .resetting ∨ t.state = .idle)

/-- How the count changes (R11, R143): a step leaves it, adds one, which takes the count button sampled pressed, or
zeroes it, which takes the reset button sampled pressed. -/
def Obligations.CountChangesOnlyByButtons : Prop :=
  ∀ s t : State, step s = .next t →
    t.count = s.count ∨
    (t.count = s.count + 1 ∧ t.cb = true ∧ t.state = .counting) ∨
    (t.count = 0 ∧ t.rb = true ∧ t.state = .resetting)

/-! ### Invariants and the whole machine -/

/-- The state after reset (R28): the values of the table; the samples, `DIG` and the
external register are free there and the buttons the environment's, so nothing is stated of them (log entry 1). -/
def Obligations.ResetValues : Prop :=
  State.reset.count = 0 ∧ State.reset.pd = 0 ∧ State.reset.state = .idle ∧ State.reset.fault = .none ∧
  State.reset.digitEn = ⟨true, true, true, true⟩ ∧ State.reset.clock = false ∧ State.reset.latch = false ∧
  State.reset.data = false ∧ State.reset.seq = .start ∧ State.reset.trace = [] ∧
  segTable State.reset.params =
    [0xFC#8, 0x60#8, 0xDA#8, 0xF2#8, 0x66#8, 0xB6#8, 0xBE#8, 0xE0#8, 0xFE#8, 0xE6#8]

/-- The configuration is this hardware's (R6) after reset, and no step, tick or operation changes it (R21, R22, R29);
`T_PULSE_MIN` is 0 there, the block inserting nothing (R203). -/
def Obligations.ConfigurationIsThisHardware : Prop :=
  ThisHardware State.reset.params ∧ State.reset.params.tPulseMin = 0 ∧
  (∀ s t : State, step s = .next t → t.params = s.params) ∧
  (∀ s t : State, tick s = .next t → t.params = s.params) ∧
  (∀ (i : Instr) (s t : State), exec i s = .next t → t.params = s.params)

/-- The invariant holds after reset. -/
def Obligations.InvariantAtReset : Prop := BlockInv State.reset

/-- Every step keeps the invariant, from every state that meets it (R27, R146). -/
def Obligations.StepKeepsInvariant : Prop :=
  ∀ s t : State, BlockInv s → step s = .next t → BlockInv t

/-- Every tick keeps the invariant: at event grain too, the clock, the latch and the digit lines are where the
sequencer says (R86, R117, R200). -/
def Obligations.TickKeepsInvariant : Prop :=
  ∀ s t : State, BlockInv s → tick s = .next t → BlockInv t

/-- One tick is at most one event (R9, R24, R47, R48): it changes no line and adds nothing to the trace, or it drives
exactly one line and adds that write, or it is a delay.  The external register shifts at a rise of the clock, taking the
level `DATA` has, and copies at a rise of the latch, and does nothing else.  With an event no register of the counter
and no fault changes. -/
def Obligations.TickPerformsOneEvent : Prop :=
  ∀ s t : State, tick s = .next t →
    (t.trace = s.trace ∧ (∀ l, levelOf t l = levelOf s l) ∧ t.sr = s.sr ∧ t.q = s.q) ∨
    ((t.count = s.count ∧ t.pd = s.pd ∧ t.state = s.state ∧ t.fault = s.fault) ∧
      ((∃ d, t.trace = s.trace ++ [.delay d] ∧ (∀ l, levelOf t l = levelOf s l) ∧ t.sr = s.sr ∧ t.q = s.q) ∨
        (∃ l v, t.trace = s.trace ++ [.write l v] ∧ levelOf t l = v ∧
          (∀ l', l' ≠ l → levelOf t l' = levelOf s l') ∧
          (t.sr = if l = .clock ∧ v = true ∧ s.clock = false then s.sr <<< 1 ||| (BitVec.ofBool s.data).setWidth 8
            else s.sr) ∧
          (t.q = if l = .latch ∧ v = true ∧ s.latch = false then s.sr else s.q))))

/-- What the invariant says of the display (R26, R119): never more than one digit on, and at the hold of a position
that position alone is visible. -/
def Obligations.InvariantLightsOneDigit : Prop :=
  ∀ s : State, BlockInv s →
    digitsOn s.digitEn ≤ 1 ∧
    (s.seq = .start → ∀ j, visible s j = none) ∧
    (∀ bo i, s.seq = .render bo i .hold → visible s i = some s.q ∧ ∀ j, j ≠ i → visible s j = none)

/-- A step keeps the parameters and only appends to the trace (R21, R51); and it ends at the start of an operation, also
when it is taken inside one, which is the model's own rule (log entry 10). -/
def Obligations.StepOnlyAppendsToTrace : Prop :=
  ∀ s t : State, step s = .next t →
    t.seq = .start ∧ t.params = s.params ∧ ∃ es, t.trace = s.trace ++ es

/-- The halt is for good (R14, R163, R167): in a halted block no operation, no step and no tick answers a next
state. -/
def Obligations.HaltIsForGood : Prop :=
  ∀ s : State, s.fault ≠ .none →
    ∃ r, step s = .fault r ∧ tick s = .fault r ∧ (∀ i : Instr, exec i s = .fault r) ∧
      ((∃ bo, s.fault = .configError bo ∧ r = .configErrorHalt bo) ∨
        (∃ d, s.fault = .digitRange d ∧ r = .digitRangeHalt d))

/-- The first fault wins (R168, vector V61): of two directly driven operations with bad operands only the first takes
its fault, and the second never starts. -/
def Obligations.FirstFaultWins : Prop :=
  ∀ (s : State) (d w : Nat) (rest : List Call), s.fault = .none → s.seq = .start → 10 ≤ d → d < 16 →
    s.calls = .encode d :: .shiftout w :: rest →
    ∃ t, runSteps 1 s = .next t ∧ t.fault = .digitRange d ∧ t.trace = s.trace ∧
      runSteps 2 s = .fault (.digitRangeHalt d)

/-- The loop runs for ever (R130, R140): with no directly driven operation, whatever the buttons do, every number of
iterations completes without a fault, each with the events of one `RENDER`: 116 with four positions of eight bits.
The number for smaller sizes is the model's own choice (DESIGN CHOICE, log entry 3). -/
def Obligations.LoopRunsForEver : Prop :=
  ∀ (k : Nat) (s : State), BlockInv s → s.fault = .none → s.seq = .start → s.calls = [] →
    ∃ t, runSteps k s = .next t ∧ t.fault = .none ∧ t.seq = .start ∧ t.calls = [] ∧
      t.trace.length = s.trace.length + eventsPerRender s.params * k ∧
      (FullSize s.params → t.trace.length = s.trace.length + 116 * k)

/-- The fine grain agrees with the coarse one (R9, R19, D27): one operation run tick by tick, with `SEQ` as its
position, ends exactly where one step does, with the same trace; from every state, also inside an operation. -/
def Obligations.TicksMakeTheStep : Prop :=
  ∀ s : State, operationByTicks s = step s

/-- The block cannot read the external register (R23): a step from a state with other contents of its two stages ends
the same way, in a state that differs at most in them. -/
def Obligations.ExternalRegisterIsNotRead : Prop :=
  ∀ (s : State) (a b : Pattern),
    (∀ t, step s = .next t → ∃ a' b', step { s with sr := a, q := b } = .next { t with sr := a', q := b' }) ∧
    (∀ r, step s = .fault r → step { s with sr := a, q := b } = .fault r) ∧
    (∀ r, step s = .refused r → step { s with sr := a, q := b } = .refused r)

/-- After the two samples the buttons are not looked at again (R18): inside an iteration other levels on the button
lines change nothing but themselves. -/
def Obligations.ButtonsUnreadAfterSampling : Prop :=
  ∀ (s : State) (x y : Level), s.seq ≠ .start → s.seq ≠ .sampleReset →
    (∀ t, step s = .next t →
      step { s with btnCount := x, btnReset := y } = .next { t with btnCount := x, btnReset := y }) ∧
    (∀ r, step s = .fault r → step { s with btnCount := x, btnReset := y } = .fault r) ∧
    (∀ r, step s = .refused r → step { s with btnCount := x, btnReset := y } = .refused r)

/-- The first iteration after reset (R193): with no button pressed it renders 0, four frames of the entry 0 least
significant bit first; with the count button held at power-on the count is 1 at once. -/
def Obligations.FirstIterationAfterReset : Prop :=
  ∀ rest : List Sample,
    (∃ t, step { State.reset with stimulus := ⟨false, false⟩ :: rest } = .next t ∧ t.count = 0 ∧
      t.state = .idle ∧ t.sr = 0x3F#8 ∧ t.q = 0x3F#8 ∧
      t.trace = renderTrace .lsbFirst State.reset.params 0 ∧
      shownBy (probeOf State.reset) t.trace =
        [(.ones, 0x3F#8), (.tens, 0x3F#8), (.hundreds, 0x3F#8), (.thousands, 0x3F#8)]) ∧
    (∃ t, step { State.reset with stimulus := ⟨false, true⟩ :: rest } = .next t ∧ t.count = 1 ∧
      t.state = .counting ∧
      shownBy (probeOf State.reset) t.trace =
        [(.ones, 0x06#8), (.tens, 0x3F#8), (.hundreds, 0x3F#8), (.thousands, 0x3F#8)])
end

