-- ==== Sys2Proof/Laws/State.lean ====
section
/-! SUPPORT. One lemma for each field and each named update of the state: what the update leaves alone, and what it
writes. -/

namespace Sys2Proof.Machine

/-! ### The trace -/

@[simp] theorem record_count (e : Event) (s : State) : (record e s).count = s.count := rfl
@[simp] theorem record_pd (e : Event) (s : State) : (record e s).pd = s.pd := rfl
@[simp] theorem record_state (e : Event) (s : State) : (record e s).state = s.state := rfl
@[simp] theorem record_fault (e : Event) (s : State) : (record e s).fault = s.fault := rfl
@[simp] theorem record_data (e : Event) (s : State) : (record e s).data = s.data := rfl
@[simp] theorem record_clock (e : Event) (s : State) : (record e s).clock = s.clock := rfl
@[simp] theorem record_latch (e : Event) (s : State) : (record e s).latch = s.latch := rfl
@[simp] theorem record_digitEn (e : Event) (s : State) : (record e s).digitEn = s.digitEn := rfl
@[simp] theorem record_btnCount (e : Event) (s : State) : (record e s).btnCount = s.btnCount := rfl
@[simp] theorem record_btnReset (e : Event) (s : State) : (record e s).btnReset = s.btnReset := rfl
@[simp] theorem record_cb (e : Event) (s : State) : (record e s).cb = s.cb := rfl
@[simp] theorem record_rb (e : Event) (s : State) : (record e s).rb = s.rb := rfl
@[simp] theorem record_dig (e : Event) (s : State) : (record e s).dig = s.dig := rfl
@[simp] theorem record_seq (e : Event) (s : State) : (record e s).seq = s.seq := rfl
@[simp] theorem record_sr (e : Event) (s : State) : (record e s).sr = s.sr := rfl
@[simp] theorem record_q (e : Event) (s : State) : (record e s).q = s.q := rfl
@[simp] theorem record_returned (e : Event) (s : State) : (record e s).returned = s.returned := rfl
@[simp] theorem record_params (e : Event) (s : State) : (record e s).params = s.params := rfl
@[simp] theorem record_calls (e : Event) (s : State) : (record e s).calls = s.calls := rfl
@[simp] theorem record_stimulus (e : Event) (s : State) : (record e s).stimulus = s.stimulus := rfl
@[simp] theorem record_draws (e : Event) (s : State) : (record e s).draws = s.draws := rfl

@[simp] theorem record_trace (e : Event) (s : State) : (record e s).trace = s.trace ++ [e] := rfl

/-! ### The clock and the latch -/

@[simp] theorem writeClock_count (v : Level) (s : State) : (writeClock v s).count = s.count := rfl
@[simp] theorem writeClock_pd (v : Level) (s : State) : (writeClock v s).pd = s.pd := rfl
@[simp] theorem writeClock_state (v : Level) (s : State) : (writeClock v s).state = s.state := rfl
@[simp] theorem writeClock_fault (v : Level) (s : State) : (writeClock v s).fault = s.fault := rfl
@[simp] theorem writeClock_data (v : Level) (s : State) : (writeClock v s).data = s.data := rfl
@[simp] theorem writeClock_latch (v : Level) (s : State) : (writeClock v s).latch = s.latch := rfl
@[simp] theorem writeClock_digitEn (v : Level) (s : State) : (writeClock v s).digitEn = s.digitEn := rfl
@[simp] theorem writeClock_btnCount (v : Level) (s : State) : (writeClock v s).btnCount = s.btnCount := rfl
@[simp] theorem writeClock_btnReset (v : Level) (s : State) : (writeClock v s).btnReset = s.btnReset := rfl
@[simp] theorem writeClock_cb (v : Level) (s : State) : (writeClock v s).cb = s.cb := rfl
@[simp] theorem writeClock_rb (v : Level) (s : State) : (writeClock v s).rb = s.rb := rfl
@[simp] theorem writeClock_dig (v : Level) (s : State) : (writeClock v s).dig = s.dig := rfl
@[simp] theorem writeClock_seq (v : Level) (s : State) : (writeClock v s).seq = s.seq := rfl
@[simp] theorem writeClock_q (v : Level) (s : State) : (writeClock v s).q = s.q := rfl
@[simp] theorem writeClock_trace (v : Level) (s : State) : (writeClock v s).trace = s.trace := rfl
@[simp] theorem writeClock_returned (v : Level) (s : State) : (writeClock v s).returned = s.returned := rfl
@[simp] theorem writeClock_params (v : Level) (s : State) : (writeClock v s).params = s.params := rfl
@[simp] theorem writeClock_calls (v : Level) (s : State) : (writeClock v s).calls = s.calls := rfl
@[simp] theorem writeClock_stimulus (v : Level) (s : State) : (writeClock v s).stimulus = s.stimulus := rfl
@[simp] theorem writeClock_draws (v : Level) (s : State) : (writeClock v s).draws = s.draws := rfl

@[simp] theorem writeClock_clock (v : Level) (s : State) : (writeClock v s).clock = v := rfl

@[simp] theorem writeLatch_count (v : Level) (s : State) : (writeLatch v s).count = s.count := rfl
@[simp] theorem writeLatch_pd (v : Level) (s : State) : (writeLatch v s).pd = s.pd := rfl
@[simp] theorem writeLatch_state (v : Level) (s : State) : (writeLatch v s).state = s.state := rfl
@[simp] theorem writeLatch_fault (v : Level) (s : State) : (writeLatch v s).fault = s.fault := rfl
@[simp] theorem writeLatch_data (v : Level) (s : State) : (writeLatch v s).data = s.data := rfl
@[simp] theorem writeLatch_clock (v : Level) (s : State) : (writeLatch v s).clock = s.clock := rfl
@[simp] theorem writeLatch_digitEn (v : Level) (s : State) : (writeLatch v s).digitEn = s.digitEn := rfl
@[simp] theorem writeLatch_btnCount (v : Level) (s : State) : (writeLatch v s).btnCount = s.btnCount := rfl
@[simp] theorem writeLatch_btnReset (v : Level) (s : State) : (writeLatch v s).btnReset = s.btnReset := rfl
@[simp] theorem writeLatch_cb (v : Level) (s : State) : (writeLatch v s).cb = s.cb := rfl
@[simp] theorem writeLatch_rb (v : Level) (s : State) : (writeLatch v s).rb = s.rb := rfl
@[simp] theorem writeLatch_dig (v : Level) (s : State) : (writeLatch v s).dig = s.dig := rfl
@[simp] theorem writeLatch_seq (v : Level) (s : State) : (writeLatch v s).seq = s.seq := rfl
@[simp] theorem writeLatch_sr (v : Level) (s : State) : (writeLatch v s).sr = s.sr := rfl
@[simp] theorem writeLatch_trace (v : Level) (s : State) : (writeLatch v s).trace = s.trace := rfl
@[simp] theorem writeLatch_returned (v : Level) (s : State) : (writeLatch v s).returned = s.returned := rfl
@[simp] theorem writeLatch_params (v : Level) (s : State) : (writeLatch v s).params = s.params := rfl
@[simp] theorem writeLatch_calls (v : Level) (s : State) : (writeLatch v s).calls = s.calls := rfl
@[simp] theorem writeLatch_stimulus (v : Level) (s : State) : (writeLatch v s).stimulus = s.stimulus := rfl
@[simp] theorem writeLatch_draws (v : Level) (s : State) : (writeLatch v s).draws = s.draws := rfl

@[simp] theorem writeLatch_latch (v : Level) (s : State) : (writeLatch v s).latch = v := rfl

/-! ### The sequencer's position -/

@[simp] theorem withSeq_count (sq : Seq) (s : State) : (withSeq sq s).count = s.count := rfl
@[simp] theorem withSeq_pd (sq : Seq) (s : State) : (withSeq sq s).pd = s.pd := rfl
@[simp] theorem withSeq_state (sq : Seq) (s : State) : (withSeq sq s).state = s.state := rfl
@[simp] theorem withSeq_fault (sq : Seq) (s : State) : (withSeq sq s).fault = s.fault := rfl
@[simp] theorem withSeq_data (sq : Seq) (s : State) : (withSeq sq s).data = s.data := rfl
@[simp] theorem withSeq_clock (sq : Seq) (s : State) : (withSeq sq s).clock = s.clock := rfl
@[simp] theorem withSeq_latch (sq : Seq) (s : State) : (withSeq sq s).latch = s.latch := rfl
@[simp] theorem withSeq_digitEn (sq : Seq) (s : State) : (withSeq sq s).digitEn = s.digitEn := rfl
@[simp] theorem withSeq_btnCount (sq : Seq) (s : State) : (withSeq sq s).btnCount = s.btnCount := rfl
@[simp] theorem withSeq_btnReset (sq : Seq) (s : State) : (withSeq sq s).btnReset = s.btnReset := rfl
@[simp] theorem withSeq_cb (sq : Seq) (s : State) : (withSeq sq s).cb = s.cb := rfl
@[simp] theorem withSeq_rb (sq : Seq) (s : State) : (withSeq sq s).rb = s.rb := rfl
@[simp] theorem withSeq_dig (sq : Seq) (s : State) : (withSeq sq s).dig = s.dig := rfl
@[simp] theorem withSeq_sr (sq : Seq) (s : State) : (withSeq sq s).sr = s.sr := rfl
@[simp] theorem withSeq_q (sq : Seq) (s : State) : (withSeq sq s).q = s.q := rfl
@[simp] theorem withSeq_trace (sq : Seq) (s : State) : (withSeq sq s).trace = s.trace := rfl
@[simp] theorem withSeq_returned (sq : Seq) (s : State) : (withSeq sq s).returned = s.returned := rfl
@[simp] theorem withSeq_params (sq : Seq) (s : State) : (withSeq sq s).params = s.params := rfl
@[simp] theorem withSeq_calls (sq : Seq) (s : State) : (withSeq sq s).calls = s.calls := rfl
@[simp] theorem withSeq_stimulus (sq : Seq) (s : State) : (withSeq sq s).stimulus = s.stimulus := rfl
@[simp] theorem withSeq_draws (sq : Seq) (s : State) : (withSeq sq s).draws = s.draws := rfl

@[simp] theorem withSeq_seq (sq : Seq) (s : State) : (withSeq sq s).seq = sq := rfl

/-! ### A fault -/

@[simp] theorem raise_count (c : FaultReg) (s : State) : (raise c s).count = s.count := rfl
@[simp] theorem raise_pd (c : FaultReg) (s : State) : (raise c s).pd = s.pd := rfl
@[simp] theorem raise_state (c : FaultReg) (s : State) : (raise c s).state = s.state := rfl
@[simp] theorem raise_data (c : FaultReg) (s : State) : (raise c s).data = s.data := rfl
@[simp] theorem raise_clock (c : FaultReg) (s : State) : (raise c s).clock = s.clock := rfl
@[simp] theorem raise_latch (c : FaultReg) (s : State) : (raise c s).latch = s.latch := rfl
@[simp] theorem raise_digitEn (c : FaultReg) (s : State) : (raise c s).digitEn = s.digitEn := rfl
@[simp] theorem raise_btnCount (c : FaultReg) (s : State) : (raise c s).btnCount = s.btnCount := rfl
@[simp] theorem raise_btnReset (c : FaultReg) (s : State) : (raise c s).btnReset = s.btnReset := rfl
@[simp] theorem raise_cb (c : FaultReg) (s : State) : (raise c s).cb = s.cb := rfl
@[simp] theorem raise_rb (c : FaultReg) (s : State) : (raise c s).rb = s.rb := rfl
@[simp] theorem raise_dig (c : FaultReg) (s : State) : (raise c s).dig = s.dig := rfl
@[simp] theorem raise_seq (c : FaultReg) (s : State) : (raise c s).seq = s.seq := rfl
@[simp] theorem raise_sr (c : FaultReg) (s : State) : (raise c s).sr = s.sr := rfl
@[simp] theorem raise_q (c : FaultReg) (s : State) : (raise c s).q = s.q := rfl
@[simp] theorem raise_trace (c : FaultReg) (s : State) : (raise c s).trace = s.trace := rfl
@[simp] theorem raise_returned (c : FaultReg) (s : State) : (raise c s).returned = s.returned := rfl
@[simp] theorem raise_params (c : FaultReg) (s : State) : (raise c s).params = s.params := rfl
@[simp] theorem raise_calls (c : FaultReg) (s : State) : (raise c s).calls = s.calls := rfl
@[simp] theorem raise_stimulus (c : FaultReg) (s : State) : (raise c s).stimulus = s.stimulus := rfl
@[simp] theorem raise_draws (c : FaultReg) (s : State) : (raise c s).draws = s.draws := rfl

@[simp] theorem raise_fault (c : FaultReg) (s : State) : (raise c s).fault = c := rfl

/-! ### The decomposition -/

@[simp] theorem decompose_count (n : Nat) (s : State) : (decompose n s).count = s.count := rfl
@[simp] theorem decompose_pd (n : Nat) (s : State) : (decompose n s).pd = s.pd := rfl
@[simp] theorem decompose_state (n : Nat) (s : State) : (decompose n s).state = s.state := rfl
@[simp] theorem decompose_fault (n : Nat) (s : State) : (decompose n s).fault = s.fault := rfl
@[simp] theorem decompose_data (n : Nat) (s : State) : (decompose n s).data = s.data := rfl
@[simp] theorem decompose_clock (n : Nat) (s : State) : (decompose n s).clock = s.clock := rfl
@[simp] theorem decompose_latch (n : Nat) (s : State) : (decompose n s).latch = s.latch := rfl
@[simp] theorem decompose_digitEn (n : Nat) (s : State) : (decompose n s).digitEn = s.digitEn := rfl
@[simp] theorem decompose_btnCount (n : Nat) (s : State) : (decompose n s).btnCount = s.btnCount := rfl
@[simp] theorem decompose_btnReset (n : Nat) (s : State) : (decompose n s).btnReset = s.btnReset := rfl
@[simp] theorem decompose_cb (n : Nat) (s : State) : (decompose n s).cb = s.cb := rfl
@[simp] theorem decompose_rb (n : Nat) (s : State) : (decompose n s).rb = s.rb := rfl
@[simp] theorem decompose_seq (n : Nat) (s : State) : (decompose n s).seq = s.seq := rfl
@[simp] theorem decompose_sr (n : Nat) (s : State) : (decompose n s).sr = s.sr := rfl
@[simp] theorem decompose_q (n : Nat) (s : State) : (decompose n s).q = s.q := rfl
@[simp] theorem decompose_trace (n : Nat) (s : State) : (decompose n s).trace = s.trace := rfl
@[simp] theorem decompose_returned (n : Nat) (s : State) : (decompose n s).returned = s.returned := rfl
@[simp] theorem decompose_params (n : Nat) (s : State) : (decompose n s).params = s.params := rfl
@[simp] theorem decompose_calls (n : Nat) (s : State) : (decompose n s).calls = s.calls := rfl
@[simp] theorem decompose_stimulus (n : Nat) (s : State) : (decompose n s).stimulus = s.stimulus := rfl
@[simp] theorem decompose_draws (n : Nat) (s : State) : (decompose n s).draws = s.draws := rfl

@[simp] theorem decompose_dig (n : Nat) (s : State) : (decompose n s).dig = decimalDigits s.params.radix n := rfl

/-! ### The samples -/

@[simp] theorem sampleCount_count  (s : State) : (sampleCount s).count = s.count := rfl
@[simp] theorem sampleCount_pd  (s : State) : (sampleCount s).pd = s.pd := rfl
@[simp] theorem sampleCount_state  (s : State) : (sampleCount s).state = s.state := rfl
@[simp] theorem sampleCount_fault  (s : State) : (sampleCount s).fault = s.fault := rfl
@[simp] theorem sampleCount_data  (s : State) : (sampleCount s).data = s.data := rfl
@[simp] theorem sampleCount_clock  (s : State) : (sampleCount s).clock = s.clock := rfl
@[simp] theorem sampleCount_latch  (s : State) : (sampleCount s).latch = s.latch := rfl
@[simp] theorem sampleCount_digitEn  (s : State) : (sampleCount s).digitEn = s.digitEn := rfl
@[simp] theorem sampleCount_btnCount  (s : State) : (sampleCount s).btnCount = s.btnCount := rfl
@[simp] theorem sampleCount_btnReset  (s : State) : (sampleCount s).btnReset = s.btnReset := rfl
@[simp] theorem sampleCount_rb  (s : State) : (sampleCount s).rb = s.rb := rfl
@[simp] theorem sampleCount_dig  (s : State) : (sampleCount s).dig = s.dig := rfl
@[simp] theorem sampleCount_seq  (s : State) : (sampleCount s).seq = s.seq := rfl
@[simp] theorem sampleCount_sr  (s : State) : (sampleCount s).sr = s.sr := rfl
@[simp] theorem sampleCount_q  (s : State) : (sampleCount s).q = s.q := rfl
@[simp] theorem sampleCount_trace  (s : State) : (sampleCount s).trace = s.trace := rfl
@[simp] theorem sampleCount_returned  (s : State) : (sampleCount s).returned = s.returned := rfl
@[simp] theorem sampleCount_params  (s : State) : (sampleCount s).params = s.params := rfl
@[simp] theorem sampleCount_calls  (s : State) : (sampleCount s).calls = s.calls := rfl
@[simp] theorem sampleCount_stimulus  (s : State) : (sampleCount s).stimulus = s.stimulus := rfl
@[simp] theorem sampleCount_draws  (s : State) : (sampleCount s).draws = s.draws := rfl

@[simp] theorem sampleCount_cb (s : State) : (sampleCount s).cb = s.btnCount := rfl

@[simp] theorem sampleReset_count  (s : State) : (sampleReset s).count = s.count := rfl
@[simp] theorem sampleReset_pd  (s : State) : (sampleReset s).pd = s.pd := rfl
@[simp] theorem sampleReset_state  (s : State) : (sampleReset s).state = s.state := rfl
@[simp] theorem sampleReset_fault  (s : State) : (sampleReset s).fault = s.fault := rfl
@[simp] theorem sampleReset_data  (s : State) : (sampleReset s).data = s.data := rfl
@[simp] theorem sampleReset_clock  (s : State) : (sampleReset s).clock = s.clock := rfl
@[simp] theorem sampleReset_latch  (s : State) : (sampleReset s).latch = s.latch := rfl
@[simp] theorem sampleReset_digitEn  (s : State) : (sampleReset s).digitEn = s.digitEn := rfl
@[simp] theorem sampleReset_btnCount  (s : State) : (sampleReset s).btnCount = s.btnCount := rfl
@[simp] theorem sampleReset_btnReset  (s : State) : (sampleReset s).btnReset = s.btnReset := rfl
@[simp] theorem sampleReset_cb  (s : State) : (sampleReset s).cb = s.cb := rfl
@[simp] theorem sampleReset_dig  (s : State) : (sampleReset s).dig = s.dig := rfl
@[simp] theorem sampleReset_seq  (s : State) : (sampleReset s).seq = s.seq := rfl
@[simp] theorem sampleReset_sr  (s : State) : (sampleReset s).sr = s.sr := rfl
@[simp] theorem sampleReset_q  (s : State) : (sampleReset s).q = s.q := rfl
@[simp] theorem sampleReset_trace  (s : State) : (sampleReset s).trace = s.trace := rfl
@[simp] theorem sampleReset_returned  (s : State) : (sampleReset s).returned = s.returned := rfl
@[simp] theorem sampleReset_params  (s : State) : (sampleReset s).params = s.params := rfl
@[simp] theorem sampleReset_calls  (s : State) : (sampleReset s).calls = s.calls := rfl
@[simp] theorem sampleReset_stimulus  (s : State) : (sampleReset s).stimulus = s.stimulus := rfl
@[simp] theorem sampleReset_draws  (s : State) : (sampleReset s).draws = s.draws := rfl

@[simp] theorem sampleReset_rb (s : State) : (sampleReset s).rb = s.btnReset := rfl

@[simp] theorem withSamples_count (rb cb : Level) (s : State) : (withSamples rb cb s).count = s.count := rfl
@[simp] theorem withSamples_pd (rb cb : Level) (s : State) : (withSamples rb cb s).pd = s.pd := rfl
@[simp] theorem withSamples_state (rb cb : Level) (s : State) : (withSamples rb cb s).state = s.state := rfl
@[simp] theorem withSamples_fault (rb cb : Level) (s : State) : (withSamples rb cb s).fault = s.fault := rfl
@[simp] theorem withSamples_data (rb cb : Level) (s : State) : (withSamples rb cb s).data = s.data := rfl
@[simp] theorem withSamples_clock (rb cb : Level) (s : State) : (withSamples rb cb s).clock = s.clock := rfl
@[simp] theorem withSamples_latch (rb cb : Level) (s : State) : (withSamples rb cb s).latch = s.latch := rfl
@[simp] theorem withSamples_digitEn (rb cb : Level) (s : State) : (withSamples rb cb s).digitEn = s.digitEn := rfl
@[simp] theorem withSamples_btnCount (rb cb : Level) (s : State) : (withSamples rb cb s).btnCount = s.btnCount := rfl
@[simp] theorem withSamples_btnReset (rb cb : Level) (s : State) : (withSamples rb cb s).btnReset = s.btnReset := rfl
@[simp] theorem withSamples_dig (rb cb : Level) (s : State) : (withSamples rb cb s).dig = s.dig := rfl
@[simp] theorem withSamples_seq (rb cb : Level) (s : State) : (withSamples rb cb s).seq = s.seq := rfl
@[simp] theorem withSamples_sr (rb cb : Level) (s : State) : (withSamples rb cb s).sr = s.sr := rfl
@[simp] theorem withSamples_q (rb cb : Level) (s : State) : (withSamples rb cb s).q = s.q := rfl
@[simp] theorem withSamples_trace (rb cb : Level) (s : State) : (withSamples rb cb s).trace = s.trace := rfl
@[simp] theorem withSamples_returned (rb cb : Level) (s : State) : (withSamples rb cb s).returned = s.returned := rfl
@[simp] theorem withSamples_params (rb cb : Level) (s : State) : (withSamples rb cb s).params = s.params := rfl
@[simp] theorem withSamples_calls (rb cb : Level) (s : State) : (withSamples rb cb s).calls = s.calls := rfl
@[simp] theorem withSamples_stimulus (rb cb : Level) (s : State) : (withSamples rb cb s).stimulus = s.stimulus := rfl
@[simp] theorem withSamples_draws (rb cb : Level) (s : State) : (withSamples rb cb s).draws = s.draws := rfl

@[simp] theorem withSamples_rb (rb cb : Level) (s : State) : (withSamples rb cb s).rb = rb := rfl
@[simp] theorem withSamples_cb (rb cb : Level) (s : State) : (withSamples rb cb s).cb = cb := rfl

/-! ### The environment's levels -/

@[simp] theorem arrive_count  (s : State) : (arrive s).count = s.count := by
  unfold arrive; split <;> rfl
@[simp] theorem arrive_pd  (s : State) : (arrive s).pd = s.pd := by
  unfold arrive; split <;> rfl
@[simp] theorem arrive_state  (s : State) : (arrive s).state = s.state := by
  unfold arrive; split <;> rfl
@[simp] theorem arrive_fault  (s : State) : (arrive s).fault = s.fault := by
  unfold arrive; split <;> rfl
@[simp] theorem arrive_data  (s : State) : (arrive s).data = s.data := by
  unfold arrive; split <;> rfl
@[simp] theorem arrive_clock  (s : State) : (arrive s).clock = s.clock := by
  unfold arrive; split <;> rfl
@[simp] theorem arrive_latch  (s : State) : (arrive s).latch = s.latch := by
  unfold arrive; split <;> rfl
@[simp] theorem arrive_digitEn  (s : State) : (arrive s).digitEn = s.digitEn := by
  unfold arrive; split <;> rfl
@[simp] theorem arrive_cb  (s : State) : (arrive s).cb = s.cb := by
  unfold arrive; split <;> rfl
@[simp] theorem arrive_rb  (s : State) : (arrive s).rb = s.rb := by
  unfold arrive; split <;> rfl
@[simp] theorem arrive_dig  (s : State) : (arrive s).dig = s.dig := by
  unfold arrive; split <;> rfl
@[simp] theorem arrive_seq  (s : State) : (arrive s).seq = s.seq := by
  unfold arrive; split <;> rfl
@[simp] theorem arrive_sr  (s : State) : (arrive s).sr = s.sr := by
  unfold arrive; split <;> rfl
@[simp] theorem arrive_q  (s : State) : (arrive s).q = s.q := by
  unfold arrive; split <;> rfl
@[simp] theorem arrive_trace  (s : State) : (arrive s).trace = s.trace := by
  unfold arrive; split <;> rfl
@[simp] theorem arrive_returned  (s : State) : (arrive s).returned = s.returned := by
  unfold arrive; split <;> rfl
@[simp] theorem arrive_params  (s : State) : (arrive s).params = s.params := by
  unfold arrive; split <;> rfl
@[simp] theorem arrive_calls  (s : State) : (arrive s).calls = s.calls := by
  unfold arrive; split <;> rfl

/-! ### One event: the seven output lines, the external register and the trace, and nothing else (R9, R80, R110) -/

@[simp] theorem applyEvent_count (e : Event) (s : State) : (applyEvent e s).count = s.count := by
  rcases e with ⟨l, v⟩ | t
  · cases l <;> rfl
  · rfl
@[simp] theorem applyEvent_pd (e : Event) (s : State) : (applyEvent e s).pd = s.pd := by
  rcases e with ⟨l, v⟩ | t
  · cases l <;> rfl
  · rfl
@[simp] theorem applyEvent_state (e : Event) (s : State) : (applyEvent e s).state = s.state := by
  rcases e with ⟨l, v⟩ | t
  · cases l <;> rfl
  · rfl
@[simp] theorem applyEvent_fault (e : Event) (s : State) : (applyEvent e s).fault = s.fault := by
  rcases e with ⟨l, v⟩ | t
  · cases l <;> rfl
  · rfl
@[simp] theorem applyEvent_btnCount (e : Event) (s : State) : (applyEvent e s).btnCount = s.btnCount := by
  rcases e with ⟨l, v⟩ | t
  · cases l <;> rfl
  · rfl
@[simp] theorem applyEvent_btnReset (e : Event) (s : State) : (applyEvent e s).btnReset = s.btnReset := by
  rcases e with ⟨l, v⟩ | t
  · cases l <;> rfl
  · rfl
@[simp] theorem applyEvent_cb (e : Event) (s : State) : (applyEvent e s).cb = s.cb := by
  rcases e with ⟨l, v⟩ | t
  · cases l <;> rfl
  · rfl
@[simp] theorem applyEvent_rb (e : Event) (s : State) : (applyEvent e s).rb = s.rb := by
  rcases e with ⟨l, v⟩ | t
  · cases l <;> rfl
  · rfl
@[simp] theorem applyEvent_dig (e : Event) (s : State) : (applyEvent e s).dig = s.dig := by
  rcases e with ⟨l, v⟩ | t
  · cases l <;> rfl
  · rfl
@[simp] theorem applyEvent_seq (e : Event) (s : State) : (applyEvent e s).seq = s.seq := by
  rcases e with ⟨l, v⟩ | t
  · cases l <;> rfl
  · rfl
@[simp] theorem applyEvent_returned (e : Event) (s : State) : (applyEvent e s).returned = s.returned := by
  rcases e with ⟨l, v⟩ | t
  · cases l <;> rfl
  · rfl
@[simp] theorem applyEvent_params (e : Event) (s : State) : (applyEvent e s).params = s.params := by
  rcases e with ⟨l, v⟩ | t
  · cases l <;> rfl
  · rfl
@[simp] theorem applyEvent_calls (e : Event) (s : State) : (applyEvent e s).calls = s.calls := by
  rcases e with ⟨l, v⟩ | t
  · cases l <;> rfl
  · rfl
@[simp] theorem applyEvent_stimulus (e : Event) (s : State) : (applyEvent e s).stimulus = s.stimulus := by
  rcases e with ⟨l, v⟩ | t
  · cases l <;> rfl
  · rfl
@[simp] theorem applyEvent_draws (e : Event) (s : State) : (applyEvent e s).draws = s.draws := by
  rcases e with ⟨l, v⟩ | t
  · cases l <;> rfl
  · rfl

@[simp] theorem applyEvent_trace (e : Event) (s : State) : (applyEvent e s).trace = s.trace ++ [e] := by
  rcases e with ⟨l, v⟩ | t
  · cases l <;> rfl
  · rfl

/-! ### Events in order -/

@[simp] theorem runEvents_count (es : List Event) (s : State) : (runEvents es s).count = s.count := by
  induction es generalizing s with
  | nil => rfl
  | cons e rest ih => simp [runEvents, ih]
@[simp] theorem runEvents_pd (es : List Event) (s : State) : (runEvents es s).pd = s.pd := by
  induction es generalizing s with
  | nil => rfl
  | cons e rest ih => simp [runEvents, ih]
@[simp] theorem runEvents_state (es : List Event) (s : State) : (runEvents es s).state = s.state := by
  induction es generalizing s with
  | nil => rfl
  | cons e rest ih => simp [runEvents, ih]
@[simp] theorem runEvents_fault (es : List Event) (s : State) : (runEvents es s).fault = s.fault := by
  induction es generalizing s with
  | nil => rfl
  | cons e rest ih => simp [runEvents, ih]
@[simp] theorem runEvents_btnCount (es : List Event) (s : State) : (runEvents es s).btnCount = s.btnCount := by
  induction es generalizing s with
  | nil => rfl
  | cons e rest ih => simp [runEvents, ih]
@[simp] theorem runEvents_btnReset (es : List Event) (s : State) : (runEvents es s).btnReset = s.btnReset := by
  induction es generalizing s with
  | nil => rfl
  | cons e rest ih => simp [runEvents, ih]
@[simp] theorem runEvents_cb (es : List Event) (s : State) : (runEvents es s).cb = s.cb := by
  induction es generalizing s with
  | nil => rfl
  | cons e rest ih => simp [runEvents, ih]
@[simp] theorem runEvents_rb (es : List Event) (s : State) : (runEvents es s).rb = s.rb := by
  induction es generalizing s with
  | nil => rfl
  | cons e rest ih => simp [runEvents, ih]
@[simp] theorem runEvents_dig (es : List Event) (s : State) : (runEvents es s).dig = s.dig := by
  induction es generalizing s with
  | nil => rfl
  | cons e rest ih => simp [runEvents, ih]
@[simp] theorem runEvents_seq (es : List Event) (s : State) : (runEvents es s).seq = s.seq := by
  induction es generalizing s with
  | nil => rfl
  | cons e rest ih => simp [runEvents, ih]
@[simp] theorem runEvents_returned (es : List Event) (s : State) : (runEvents es s).returned = s.returned := by
  induction es generalizing s with
  | nil => rfl
  | cons e rest ih => simp [runEvents, ih]
@[simp] theorem runEvents_params (es : List Event) (s : State) : (runEvents es s).params = s.params := by
  induction es generalizing s with
  | nil => rfl
  | cons e rest ih => simp [runEvents, ih]
@[simp] theorem runEvents_calls (es : List Event) (s : State) : (runEvents es s).calls = s.calls := by
  induction es generalizing s with
  | nil => rfl
  | cons e rest ih => simp [runEvents, ih]
@[simp] theorem runEvents_stimulus (es : List Event) (s : State) : (runEvents es s).stimulus = s.stimulus := by
  induction es generalizing s with
  | nil => rfl
  | cons e rest ih => simp [runEvents, ih]
@[simp] theorem runEvents_draws (es : List Event) (s : State) : (runEvents es s).draws = s.draws := by
  induction es generalizing s with
  | nil => rfl
  | cons e rest ih => simp [runEvents, ih]

end Sys2Proof.Machine
end

