-- ==== Sys2Proof/Laws/Ops.lean ====
section
/-! SUPPORT. What each shared operation does, said once: events, a frame, `SHIFTOUT`, `ENCODE`, `RENDER`, the halt. -/

namespace Sys2Proof.Machine

/-! ### Events -/

theorem runEvents_append (a b : List Event) (s : State) :
    runEvents (a ++ b) s = runEvents b (runEvents a s) := by
  induction a generalizing s with
  | nil => rfl
  | cons e rest ih => exact ih (applyEvent e s)

theorem runEvents_trace (es : List Event) (s : State) :
    (runEvents es s).trace = s.trace ++ es := by
  induction es generalizing s with
  | nil => simp [runEvents]
  | cons e rest ih => simp [runEvents, ih]

/-! ### The halt -/

theorem unlessHalted_running {s : State} (h : s.fault = .none) (r : Result) : unlessHalted s r = r := by
  simp [unlessHalted, h]

theorem whileRunning_running {s : State} (h : s.fault = .none) (t : State) :
    whileRunning s t = .next t := unlessHalted_running h _

/-- An operation answers a next state only in a running block. -/
theorem unlessHalted_next {s t : State} {r : Result} (h : unlessHalted s r = .next t) :
    s.fault = .none ∧ r = .next t := by
  unfold unlessHalted at h
  split at h
  · exact ⟨‹_›, h⟩
  · cases h
  · cases h

theorem whileRunning_next {s t u : State} (h : whileRunning s u = .next t) :
    s.fault = .none ∧ u = t := by
  obtain ⟨hf, hu⟩ := unlessHalted_next h
  exact ⟨hf, by cases hu; rfl⟩

theorem halted_iff (s : State) : s.halted = false ↔ s.fault = .none := by
  simp [State.halted]

theorem andThen_running {s : State} (h : s.fault = .none) (f : State → State) : andThen f s = f s := by
  simp [andThen, (halted_iff s).2 h]

theorem andThen_halted {s : State} (h : s.fault ≠ .none) (f : State → State) : andThen f s = s := by
  have : s.halted = true := by simpa [State.halted] using h
  simp [andThen, this]

/-! ### SHIFTOUT -/

/-- Eight shifts leave nothing of the old contents: the first bit sent is in `SR[7]`, the last in `SR[0]` (R88). -/
theorem shiftIn_eight (sr : Pattern) (b7 b6 b5 b4 b3 b2 b1 b0 : Level) (j : Nat) (hj : j < 8) :
    (shiftIn (shiftIn (shiftIn (shiftIn (shiftIn (shiftIn (shiftIn (shiftIn sr b7) b6) b5) b4) b3) b2) b1)
      b0).getLsbD j = [b0, b1, b2, b3, b4, b5, b6, b7].getD j false := by
  have : j = 0 ∨ j = 1 ∨ j = 2 ∨ j = 3 ∨ j = 4 ∨ j = 5 ∨ j = 6 ∨ j = 7 := by omega
  rcases this with h | h | h | h | h | h | h | h <;> subst h <;> simp [shiftIn]

/-- `rev8(p)[i] = p[7 - i]` (00_scope.md section 5). -/
theorem rev8_bit (p : Pattern) (i : Nat) (h : i < 8) : (rev8 p).getLsbD i = p.getLsbD (7 - i) := by
  rw [rev8, BitVec.getLsbD_reverse, BitVec.getMsbD]
  simp [h]

/-- A width of eight is the one value of that number. -/
theorem PatternWidth.eq_eightBits {w : PatternWidth} (h : w.toNat = 8) : w = eightBits := by
  obtain ⟨⟨k, hk⟩⟩ := w
  have : k = 7 := by simpa [PatternWidth.toNat] using h
  subst this; rfl

/-- Four positions are the one value of that number. -/
theorem DigitCount.eq_fourDigits {n : DigitCount} (h : n.toNat = 4) : n = fourDigits := by
  obtain ⟨⟨k, hk⟩⟩ := n
  have : k = 3 := by simpa [DigitCount.toNat] using h
  subst this; rfl

theorem positionsOf_fourDigits : positionsOf fourDigits = Position.all := rfl

/-- The 26 events of a frame of eight bits, written out (R82). -/
theorem frame_eightBits (bo : BitOrder) (p : Pattern) :
    frame bo eightBits p =
      bitCell (bitAt bo eightBits p 0) ++ bitCell (bitAt bo eightBits p 1) ++ bitCell (bitAt bo eightBits p 2) ++
      bitCell (bitAt bo eightBits p 3) ++ bitCell (bitAt bo eightBits p 4) ++ bitCell (bitAt bo eightBits p 5) ++
      bitCell (bitAt bo eightBits p 6) ++ bitCell (bitAt bo eightBits p 7) ++
      [.write .latch true, .write .latch false] := rfl

/-- After the eight cells the shift stage holds the pattern as `onPins` places it (R44, R88). -/
theorem shiftIn_frame (bo : BitOrder) (p sr : Pattern) :
    shiftIn (shiftIn (shiftIn (shiftIn (shiftIn (shiftIn (shiftIn (shiftIn sr (bitAt bo eightBits p 0))
      (bitAt bo eightBits p 1)) (bitAt bo eightBits p 2)) (bitAt bo eightBits p 3)) (bitAt bo eightBits p 4))
      (bitAt bo eightBits p 5)) (bitAt bo eightBits p 6)) (bitAt bo eightBits p 7) =
    onPins bo p := by
  apply BitVec.eq_of_getLsbD_eq
  intro j hj
  rw [shiftIn_eight _ _ _ _ _ _ _ _ _ j hj]
  have : j = 0 ∨ j = 1 ∨ j = 2 ∨ j = 3 ∨ j = 4 ∨ j = 5 ∨ j = 6 ∨ j = 7 := by omega
  rcases this with h | h | h | h | h | h | h | h <;> subst h <;>
    cases bo <;> first | rfl | (rw [onPins, rev8_bit p _ hj]; rfl)

/-- The shifts of the cells 1 to 7 of a frame. -/
def lastSeven (bo : BitOrder) (p sr : Pattern) : Pattern :=
  shiftIn (shiftIn (shiftIn (shiftIn (shiftIn (shiftIn (shiftIn sr (bitAt bo eightBits p 1)) (bitAt bo eightBits p 2))
    (bitAt bo eightBits p 3)) (bitAt bo eightBits p 4)) (bitAt bo eightBits p 5)) (bitAt bo eightBits p 6))
    (bitAt bo eightBits p 7)

/-- A frame from any levels (R82, R210): a clock that is already high gives no first edge, a latch that is already
high gives no edge. -/
theorem runEvents_frame_anyLevels (bo : BitOrder) (p : Pattern) (s : State) :
    runEvents (frame bo eightBits p) s =
      { s with
        data := bitAt bo eightBits p 7, clock := false, latch := false,
        sr := lastSeven bo p (if s.clock then s.sr else shiftIn s.sr (bitAt bo eightBits p 0)),
        q := if s.latch then s.q else lastSeven bo p (if s.clock then s.sr else shiftIn s.sr (bitAt bo eightBits p 0)),
        trace := s.trace ++ frame bo eightBits p } := by
  have ht := runEvents_trace (frame bo eightBits p) s
  rw [← ht]
  cases hl : s.latch <;> cases hc : s.clock <;>
    simp [frame_eightBits, bitCell, runEvents, applyEvent, writeLine, writeClock, writeLatch, record, hl, hc, lastSeven]

/-- A frame started with clock and latch low (R82, R86, R88): the lines, both stages and the trace. -/
theorem runEvents_frame (bo : BitOrder) (p : Pattern) (s : State) (hc : s.clock = false)
    (hl : s.latch = false) :
    runEvents (frame bo eightBits p) s =
      { s with
        data := bitAt bo eightBits p 7, clock := false, latch := false, sr := onPins bo p, q := onPins bo p,
        trace := s.trace ++ frame bo eightBits p } := by
  have hsr : lastSeven bo p (shiftIn s.sr (bitAt bo eightBits p 0)) = onPins bo p := shiftIn_frame bo p s.sr
  simp [runEvents_frame_anyLevels, hc, hl, hsr]

theorem shiftout_valid {code : Nat} {bo : BitOrder} {s : State} (h : orderOfCode s.params.codes code = some bo)
    (p : Pattern) : shiftout code p s = runEvents (frame bo s.params.patternWidth p) s := by
  simp [shiftout, h]

theorem shiftout_invalid {code : Nat} {s : State} (h : orderOfCode s.params.codes code = none) (p : Pattern) :
    shiftout code p s = raise (.configError code) s := by
  simp [shiftout, h]

@[simp] theorem orderOfCode_msb (c : OrderCodes) : orderOfCode c c.msbFirst = some .msbFirst := by
  simp [orderOfCode]

/-- With two distinct codes the second one names its own order (R61). -/
theorem orderOfCode_lsb {c : OrderCodes} (h : c.distinct) : orderOfCode c c.lsbFirst = some .lsbFirst := by
  simp [orderOfCode, Ne.symm h]

theorem orderOfCode_code {c : OrderCodes} (h : c.distinct) (bo : BitOrder) :
    orderOfCode c (codeOfOrder c bo) = some bo := by
  cases bo
  · exact orderOfCode_msb c
  · exact orderOfCode_lsb h

/-- The code of an order is a valid code, whatever the two codes are (R61). -/
theorem orderOfCode_code_valid (c : OrderCodes) (bo : BitOrder) : ∃ o, orderOfCode c (codeOfOrder c bo) = some o := by
  cases bo
  · exact ⟨_, orderOfCode_msb c⟩
  · simp only [orderOfCode, codeOfOrder]
    split
    · exact ⟨_, rfl⟩
    · exact ⟨.lsbFirst, by simp⟩

/-- A code names no order exactly if it is neither of the two (R61). -/
theorem orderOfCode_none (c : OrderCodes) (code : Nat) :
    orderOfCode c code = none ↔ code ≠ c.msbFirst ∧ code ≠ c.lsbFirst := by
  unfold orderOfCode
  split
  · simp_all
  · split <;> simp_all

/-! ### ENCODE -/

theorem tableRead_inRange (ps : Params) {d : Nat} (h : d < 10) :
    tableRead ps d = some (segmentOf ps (Fin.ofNat 10 d)) := by
  simp [tableRead, digitInRange, h]

theorem tableRead_outOfRange (ps : Params) {d : Nat} (h : ¬ d < 10) : tableRead ps d = none := by
  simp [tableRead, digitInRange, h]

@[simp] theorem tableRead_digit (ps : Params) (d : Fin 10) :
    tableRead ps d.val = some (segmentOf ps d) := by
  rw [tableRead_inRange ps d.isLt]
  simp

theorem encodeDigit_inRange {d : Nat} (h : d < 10) (s : State) :
    encodeDigit d s = { s with returned := some (segmentOf s.params (Fin.ofNat 10 d)) } := by
  simp [encodeDigit, tableRead_inRange s.params h]

theorem encodeDigit_outOfRange {d : Nat} (h : ¬ d < 10) (s : State) :
    encodeDigit d s = raise (.digitRange d) s := by
  simp [encodeDigit, tableRead_outOfRange s.params h]

/-! ### RENDER -/

/-- The events of one position. -/
def positionTrace (bo : BitOrder) (ps : Params) (d : Fin 10) (i : Position) : List Event :=
  frame bo ps.patternWidth (segmentOf ps d) ++ illuminate i ps.tIllum

/-- One position of a running block is its events, whatever the levels (R112). -/
theorem renderPosition_valid {code : Nat} {bo : BitOrder} {s : State}
    (h : orderOfCode s.params.codes code = some bo) (i : Position) (hf : s.fault = .none) :
    renderPosition code i s = runEvents (positionTrace bo s.params (s.dig.get i) i) s := by
  rw [renderPosition, tableRead_digit]
  simp only [shiftout_valid h]
  rw [andThen_running (by simpa using hf), positionTrace, runEvents_append]

theorem renderPosition_invalid {code : Nat} {s : State} (h : orderOfCode s.params.codes code = none)
    (i : Position) : renderPosition code i s = raise (.configError code) s := by
  rw [renderPosition, tableRead_digit]
  simp only [shiftout_invalid h]
  exact andThen_halted (by simp) _

/-- The events of a `RENDER`, from the digits. -/
def renderEvents (bo : BitOrder) (ps : Params) (dg : PerPosition (Fin 10)) : List Event :=
  (positionsOf ps.numDigits).flatMap (fun i => positionTrace bo ps (dg.get i) i)

/-- Positions in a running block with a valid order are their events, one after the other. -/
theorem renderPositions_valid {code : Nat} {bo : BitOrder} (todo : List Position) {s : State}
    (h : orderOfCode s.params.codes code = some bo) (hf : s.fault = .none) :
    renderPositions code todo s =
      runEvents (todo.flatMap (fun i => positionTrace bo s.params (s.dig.get i) i)) s := by
  induction todo generalizing s with
  | nil => rfl
  | cons i rest ih =>
    rw [renderPositions, andThen_running hf, renderPosition_valid h i hf, ih (by simpa using h) (by simpa using hf)]
    simp [runEvents_append]

/-- A halted block does no position. -/
theorem renderPositions_halted (code : Nat) (todo : List Position) {s : State} (hf : s.fault ≠ .none) :
    renderPositions code todo s = s := by
  induction todo with
  | nil => rfl
  | cons i rest ih => rw [renderPositions, andThen_halted hf, ih]

/-- A `RENDER` with a valid order is the decomposition and then its events, whatever the levels (R112). -/
theorem render_valid {code : Nat} {bo : BitOrder} {s : State} (h : orderOfCode s.params.codes code = some bo)
    (n : Nat) (hf : s.fault = .none) :
    render code n s = runEvents (renderEvents bo s.params (decimalDigits s.params.radix n)) (decompose n s) :=
  renderPositions_valid (s := decompose n s) _ h hf

/-- At least one position is visited, the ones first. -/
theorem positionsOf_eq_cons (n : DigitCount) : ∃ rest, positionsOf n = .ones :: rest := ⟨_, rfl⟩

/-- A `RENDER` with an invalid order decomposes and then takes the fault of its first frame (R116). -/
theorem render_invalid {code : Nat} {s : State} (h : orderOfCode s.params.codes code = none) (n : Nat)
    (hf : s.fault = .none) : render code n s = raise (.configError code) (decompose n s) := by
  obtain ⟨rest, hr⟩ := positionsOf_eq_cons s.params.numDigits
  rw [render, hr, renderPositions, andThen_running (by simpa using hf), renderPosition_invalid (by simpa using h)]
  exact renderPositions_halted code rest (by simp)

/-! ### The lines after a frame, a position and a `RENDER` of any configured size (R6, R82, R112) -/

theorem cellEvents_cons (bo : BitOrder) (w : PatternWidth) (p : Pattern) (j : Fin 8) (js : List (Fin 8)) :
    cellEvents bo w p (j :: js) = bitCell (bitAt bo w p j) ++ cellEvents bo w p js := rfl

/-- Cells write `DATA` and `CLOCK` only, and leave `CLOCK` low. -/
theorem runEvents_cells_lines (bo : BitOrder) (w : PatternWidth) (p : Pattern) (js : List (Fin 8)) (s : State) :
    (runEvents (cellEvents bo w p js) s).digitEn = s.digitEn ∧
    (runEvents (cellEvents bo w p js) s).latch = s.latch ∧
    (runEvents (cellEvents bo w p js) s).q = s.q ∧
    (js ≠ [] ∨ s.clock = false → (runEvents (cellEvents bo w p js) s).clock = false) := by
  induction js generalizing s with
  | nil => simp [cellEvents, runEvents]
  | cons j js ih =>
    obtain ⟨hd, hl, hq, hc⟩ := ih (runEvents (bitCell (bitAt bo w p j)) s)
    rw [cellEvents_cons, runEvents_append, hd, hl, hq]
    refine ⟨rfl, rfl, rfl, fun _ => hc (.inr rfl)⟩

theorem cells_ne_nil (w : PatternWidth) : cells w ≠ [] := by
  simp [cells, PatternWidth.toNat]

/-- After a frame `CLOCK` and `LATCH` are low and the digit lines are as before. -/
theorem runEvents_frame_lines (bo : BitOrder) (w : PatternWidth) (p : Pattern) (s : State) :
    (runEvents (frame bo w p) s).digitEn = s.digitEn ∧ (runEvents (frame bo w p) s).clock = false ∧
    (runEvents (frame bo w p) s).latch = false := by
  obtain ⟨hd, _, _, hc⟩ := runEvents_cells_lines bo w p (cells w) s
  have hc := hc (.inl (cells_ne_nil w))
  rw [frame, runEvents_append]
  generalize runEvents (cellEvents bo w p (cells w)) s = u at hd hc
  exact ⟨hd, hc, rfl⟩

/-- After a position its digit line is 1, the others are as before, `CLOCK` and `LATCH` are low. -/
theorem runEvents_position_lines (bo : BitOrder) (ps : Params) (d : Fin 10) (i : Position) (s : State) :
    (runEvents (positionTrace bo ps d i) s).digitEn = s.digitEn.set i true ∧
    (runEvents (positionTrace bo ps d i) s).clock = false ∧
    (runEvents (positionTrace bo ps d i) s).latch = false := by
  obtain ⟨hd, hc, hl⟩ := runEvents_frame_lines bo ps.patternWidth (segmentOf ps d) s
  rw [positionTrace, runEvents_append, ← hd]
  generalize runEvents (frame bo ps.patternWidth (segmentOf ps d)) s = u at hc hl
  refine ⟨?_, hc, hl⟩
  cases i <;> rfl

/-- After some positions the digit lines of these are 1, the others are as before, and `CLOCK` and `LATCH` are low if
there was a position. -/
theorem runEvents_positions_lines (bo : BitOrder) (ps : Params) (dg : PerPosition (Fin 10)) (todo : List Position)
    (s : State) :
    (runEvents (todo.flatMap (fun i => positionTrace bo ps (dg.get i) i)) s).digitEn =
      todo.foldl (fun d i => d.set i true) s.digitEn ∧
    (todo ≠ [] ∨ s.clock = false ∧ s.latch = false →
      (runEvents (todo.flatMap (fun i => positionTrace bo ps (dg.get i) i)) s).clock = false ∧
      (runEvents (todo.flatMap (fun i => positionTrace bo ps (dg.get i) i)) s).latch = false) := by
  induction todo generalizing s with
  | nil => exact ⟨rfl, fun h => h.elim (fun h => absurd rfl h) id⟩
  | cons i rest ih =>
    obtain ⟨hd, hc, hl⟩ := runEvents_position_lines bo ps (dg.get i) i s
    obtain ⟨ihd, ihl⟩ := ih (runEvents (positionTrace bo ps (dg.get i) i) s)
    rw [List.flatMap_cons, runEvents_append, ihd, hd]
    exact ⟨rfl, fun _ => ihl (.inr ⟨hc, hl⟩)⟩

/-- The lines after a whole `RENDER` (R112, R210). -/
theorem runEvents_render_lines (bo : BitOrder) (ps : Params) (dg : PerPosition (Fin 10)) (s : State) :
    (runEvents (renderEvents bo ps dg) s).digitEn =
      (positionsOf ps.numDigits).foldl (fun d i => d.set i true) s.digitEn ∧
    (runEvents (renderEvents bo ps dg) s).clock = false ∧ (runEvents (renderEvents bo ps dg) s).latch = false := by
  obtain ⟨rest, hr⟩ := positionsOf_eq_cons ps.numDigits
  obtain ⟨hd, hl⟩ := runEvents_positions_lines bo ps dg (positionsOf ps.numDigits) s
  exact ⟨hd, hl (.inl (by simp [hr]))⟩

/-- With every digit off before it, every digit is off after a `RENDER` (R117). -/
theorem runEvents_render_allOff (bo : BitOrder) (ps : Params) (dg : PerPosition (Fin 10)) (s : State)
    (h : s.digitEn = .const true) : (runEvents (renderEvents bo ps dg) s).digitEn = .const true := by
  have off : ∀ todo : List Position,
      todo.foldl (fun d i => d.set i true) (PerPosition.const true) = PerPosition.const true := by
    intro todo
    induction todo with
    | nil => rfl
    | cons i rest ih => cases i <;> exact ih
  rw [(runEvents_render_lines bo ps dg s).1, h, off]

/-! ### The state after a position and a `RENDER` of this hardware's sizes -/

/-- One position from any levels: its line, the shifter's lines, the external register and the trace change. -/
theorem runEvents_position_anyLevels (bo : BitOrder) (ps : Params) (hw : ps.patternWidth.toNat = 8) (d : Fin 10)
    (i : Position) (s : State) :
    runEvents (positionTrace bo ps d i) s =
      { s with
        data := bitAt bo eightBits (segmentOf ps d) 7, clock := false, latch := false,
        digitEn := s.digitEn.set i true,
        sr := (runEvents (frame bo eightBits (segmentOf ps d)) s).sr,
        q := (runEvents (frame bo eightBits (segmentOf ps d)) s).q,
        trace := s.trace ++ positionTrace bo ps d i } := by
  have ht := runEvents_trace (positionTrace bo ps d i) s
  rw [← ht, positionTrace, PatternWidth.eq_eightBits hw, runEvents_append, runEvents_frame_anyLevels bo _ s]
  cases i <;> simp [illuminate, runEvents, applyEvent, writeLine, record, PerPosition.set]

/-- One position started with clock and latch low: its pattern is left in both stages (R112, R119). -/
theorem runEvents_position (bo : BitOrder) (ps : Params) (hw : ps.patternWidth.toNat = 8) (d : Fin 10)
    (i : Position) (s : State) (hc : s.clock = false) (hl : s.latch = false) :
    runEvents (positionTrace bo ps d i) s =
      { s with
        data := bitAt bo eightBits (segmentOf ps d) 7, clock := false, latch := false,
        digitEn := s.digitEn.set i true,
        sr := onPins bo (segmentOf ps d), q := onPins bo (segmentOf ps d),
        trace := s.trace ++ positionTrace bo ps d i } := by
  rw [runEvents_position_anyLevels bo ps hw, runEvents_frame bo _ s hc hl]

/-- The events of a `RENDER` of four positions, one after the other. -/
theorem renderEvents_fourDigits (bo : BitOrder) (ps : Params) (hn : ps.numDigits.toNat = 4)
    (dg : PerPosition (Fin 10)) :
    renderEvents bo ps dg =
      positionTrace bo ps dg.ones .ones ++ positionTrace bo ps dg.tens .tens ++
        positionTrace bo ps dg.hundreds .hundreds ++ positionTrace bo ps dg.thousands .thousands := by
  simp [renderEvents, DigitCount.eq_fourDigits hn, positionsOf_fourDigits, Position.all, PerPosition.get]

/-- The events of a whole `RENDER` from any levels (R112): whatever the first frame met, the last three start with
clock and latch low, and every digit line has been written to 1. -/
theorem runEvents_render (bo : BitOrder) (ps : Params) (hp : FullSize ps) (dg : PerPosition (Fin 10)) (s : State) :
    runEvents (renderEvents bo ps dg) s =
      { s with
        data := bitAt bo eightBits (segmentOf ps dg.thousands) 7, clock := false, latch := false,
        digitEn := .const true,
        sr := onPins bo (segmentOf ps dg.thousands), q := onPins bo (segmentOf ps dg.thousands),
        trace := s.trace ++ renderEvents bo ps dg } := by
  rw [renderEvents_fourDigits bo ps hp.1]
  simp only [runEvents_append]
  rw [runEvents_position_anyLevels bo ps hp.2 dg.ones .ones s,
    runEvents_position bo ps hp.2 dg.tens .tens _ rfl rfl,
    runEvents_position bo ps hp.2 dg.hundreds .hundreds _ rfl rfl,
    runEvents_position bo ps hp.2 dg.thousands .thousands _ rfl rfl]
  simp [PerPosition.set, PerPosition.const]

/-- A `RENDER` never leaves anything but the lines, the external register, `DIG` and the trace changed, and it
raises nothing for a valid order (R110). -/
theorem render_fault {code : Nat} {bo : BitOrder} {s : State} (h : orderOfCode s.params.codes code = some bo)
    (n : Nat) (hf : s.fault = .none) : (render code n s).fault = .none := by
  simp [render_valid h n hf, hf]

/-- The order in which the loop's frames are sent: that of its code (R130). -/
def displayOrder (ps : Params) : BitOrder :=
  if ps.codes.distinct then ps.displayBitOrder else .msbFirst

/-- The loop's code is valid, whatever the configuration (R130, R161). -/
theorem orderOfCode_display (ps : Params) : orderOfCode ps.codes (displayCode ps) = some (displayOrder ps) := by
  unfold displayCode displayOrder
  split
  next h => exact orderOfCode_code h _
  next h =>
    have : ps.codes.msbFirst = ps.codes.lsbFirst := by simpa [OrderCodes.distinct] using h
    cases hb : ps.displayBitOrder <;> simp [codeOfOrder, orderOfCode, this]

/-- The render that ends every iteration. -/
theorem renderCount_eq (s : State) (hf : s.fault = .none) :
    renderCount s = runEvents (renderEvents (displayOrder s.params) s.params
      (decimalDigits s.params.radix s.count)) (decompose s.count s) :=
  render_valid (orderOfCode_display s.params) s.count hf

/-! ### The configuration -/

/-- No operation writes the configuration (R21, R29): `SHIFTOUT`. -/
theorem shiftout_params (bo : Nat) (p : Pattern) (s : State) : (shiftout bo p s).params = s.params := by
  unfold shiftout
  split <;> simp

/-- No operation writes the configuration: `ENCODE`. -/
theorem encodeDigit_params (d : Nat) (s : State) : (encodeDigit d s).params = s.params := by
  unfold encodeDigit
  split <;> simp

theorem renderPosition_params (bo : Nat) (i : Position) (s : State) :
    (renderPosition bo i s).params = s.params := by
  unfold renderPosition
  split
  · simp
  · unfold andThen
    split <;> simp [shiftout_params]

theorem andThen_renderPosition_params (bo : Nat) (i : Position) (s : State) :
    (andThen (renderPosition bo i) s).params = s.params := by
  unfold andThen
  split <;> simp [renderPosition_params]

theorem renderPositions_params (bo : Nat) (todo : List Position) (s : State) :
    (renderPositions bo todo s).params = s.params := by
  induction todo generalizing s with
  | nil => rfl
  | cons i rest ih => rw [renderPositions, ih, andThen_renderPosition_params]

/-- No operation writes the configuration: `RENDER`. -/
theorem render_params (bo n : Nat) (s : State) : (render bo n s).params = s.params := by
  simp [render, renderPositions_params]

end Sys2Proof.Machine
end

