-- ==== Sys2Proof/Laws/Step.lean ====
section
/-! SUPPORT. What a whole instruction and a whole step can do, said once: the effect of each row, and the cases of a
step that answers a next state. -/

namespace Sys2Proof.Machine

/-! ### The rows -/

/-- The state in which a row ends, in a running block (for the reserved row, the state it is refused in). -/
def effect (i : Instr) (s : State) : State :=
  match i with
  | .shiftoutMsb p => shiftout s.params.codes.msbFirst p s
  | .shiftoutLsb p => shiftout s.params.codes.lsbFirst p s
  | .shiftoutBadorder bo p => shiftout bo p s
  | .encode0 => encodeDigit 0 s
  | .encode1 => encodeDigit 1 s
  | .encode2 => encodeDigit 2 s
  | .encode3 => encodeDigit 3 s
  | .encode4 => encodeDigit 4 s
  | .encode5 => encodeDigit 5 s
  | .encode6 => encodeDigit 6 s
  | .encode7 => encodeDigit 7 s
  | .encode8 => encodeDigit 8 s
  | .encode9 => encodeDigit 9 s
  | .encodeRangeA d => encodeDigit d s
  | .encodeRangeB d => encodeDigit d s
  | .renderMsb n => render s.params.codes.msbFirst n s
  | .renderLsb n => render s.params.codes.lsbFirst n s
  | .renderBadorder bo n => render bo n s
  | .iterIdleNone => renderCount (onIdleNone s)
  | .iterIdleCount rb => renderCount (onIdleCount rb s)
  | .iterIdleReset => renderCount (onIdleReset s)
  | .iterCountingRelease rb => renderCount (onCountingRelease rb s)
  | .iterCountingHold rb => renderCount (onCountingHold rb s)
  | .iterResettingRelease cb => renderCount (onResettingRelease cb s)
  | .iterResettingHold cb => renderCount (onResettingHold cb s)
  | .iterBadstate _ _ => s

/-- The one row that has no next state (R73). -/
def isReserved : Instr → Bool
  | .iterBadstate _ _ => true
  | _ => false

theorem exec_running {i : Instr} {s : State} (h : s.fault = .none) (hr : isReserved i = false) :
    exec i s = .next (effect i s) := by
  cases i <;> first
    | exact whileRunning_running h _
    | simp [isReserved] at hr

/-- A row that completes does so in a running block, with its effect. -/
theorem exec_next {i : Instr} {s t : State} (h : exec i s = .next t) :
    s.fault = .none ∧ isReserved i = false ∧ t = effect i s := by
  cases i <;> first
    | exact ⟨(whileRunning_next h).1, rfl, (whileRunning_next h).2.symm⟩
    | exact absurd (unlessHalted_next h).2 (by simp)

/-- In a halted block every row answers the halt (R163). -/
theorem exec_configHalt (i : Instr) {s : State} {bo : Nat} (h : s.fault = .configError bo) :
    exec i s = .fault (.configErrorHalt bo) := by
  cases i <;>
    simp [exec, execShiftoutMsb, execShiftoutLsb, execShiftoutBadorder, execEncode0, execEncode1, execEncode2,
      execEncode3, execEncode4, execEncode5, execEncode6, execEncode7, execEncode8, execEncode9, execEncodeRangeA,
      execEncodeRangeB, execRenderMsb, execRenderLsb, execRenderBadorder, execIterIdleNone, execIterIdleCount,
      execIterIdleReset, execIterCountingRelease, execIterCountingHold, execIterResettingRelease,
      execIterResettingHold, execIterBadstate, whileRunning, unlessHalted, h]

theorem exec_rangeHalt (i : Instr) {s : State} {d : Nat} (h : s.fault = .digitRange d) :
    exec i s = .fault (.digitRangeHalt d) := by
  cases i <;>
    simp [exec, execShiftoutMsb, execShiftoutLsb, execShiftoutBadorder, execEncode0, execEncode1, execEncode2,
      execEncode3, execEncode4, execEncode5, execEncode6, execEncode7, execEncode8, execEncode9, execEncodeRangeA,
      execEncodeRangeB, execRenderMsb, execRenderLsb, execRenderBadorder, execIterIdleNone, execIterIdleCount,
      execIterIdleReset, execIterCountingRelease, execIterCountingHold, execIterResettingRelease,
      execIterResettingHold, execIterBadstate, whileRunning, unlessHalted, h]

/-! ### The register part of a transition -/

/-- The register part of the transition a state and two samples select (R131 to R138); the reserved code has none. -/
def transitionOf (st : FsmState) (rb cb : Level) (s : State) : State :=
  match st, rb, cb with
  | .idle, false, false => onIdleNone s
  | .idle, rb, true => onIdleCount rb s
  | .idle, true, false => onIdleReset s
  | .counting, rb, false => onCountingRelease rb s
  | .counting, rb, true => onCountingHold rb s
  | .resetting, false, cb => onResettingRelease cb s
  | .resetting, true, cb => onResettingHold cb s
  | .reserved, _, _ => s

/-- The word formed from a state and two samples decodes to the row that it selects (R69, R71). -/
theorem decode_f4Bits (c : OrderCodes) (st : FsmState) (rb cb : Level) :
    decode c (.f4 (f4Bits st rb cb)) = .ok (selectIteration st rb cb) := by
  cases st <;> cases rb <;> cases cb <;> rfl

theorem effect_selectIteration {st : FsmState} (rb cb : Level) (s : State) (h : st ≠ .reserved) :
    effect (selectIteration st rb cb) s = renderCount (transitionOf st rb cb s) := by
  cases st <;> cases rb <;> cases cb <;> first | rfl | exact absurd rfl h

theorem isReserved_selectIteration (st : FsmState) (rb cb : Level) :
    isReserved (selectIteration st rb cb) = decide (st = .reserved) := by
  cases st <;> cases rb <;> cases cb <;> rfl

/-- A transition writes the count, the press duration, `STATE` and the samples, and no fault (R130). -/
theorem transitionOf_fault (st : FsmState) (rb cb : Level) (s : State) :
    (transitionOf st rb cb s).fault = s.fault := by
  cases st <;> cases rb <;> cases cb <;> rfl

/-! ### The step -/

/-- The cases of a step that answers a next state: a directly driven operation, an iteration, or the rest of an
operation in progress. -/
theorem step_cases {s t : State} (h : step s = .next t) :
    s.fault = .none ∧
    ((∃ c rest i, s.seq = .start ∧ s.calls = c :: rest ∧ decode s.params.codes c.raw = .ok i ∧
        exec i { s with calls := rest } = .next t) ∨
     (s.seq = .start ∧ s.calls = [] ∧
        exec (selectIteration s.state (arrive s).btnReset (arrive s).btnCount) (arrive s) = .next t) ∨
     (s.seq ≠ .start ∧ finishOperation s = .next t)) := by
  obtain ⟨hf, hs⟩ := unlessHalted_next h
  refine ⟨hf, ?_⟩
  split at hs
  next hq =>
    cases hc : s.calls with
    | nil =>
      simp only [nextFetch, hc, iterationWord, decode_f4Bits, onDecoded, arrive_state] at hs
      exact .inr (.inl ⟨hq, rfl, hs⟩)
    | cons c rest =>
      simp only [nextFetch, hc] at hs
      cases hd : decode s.params.codes c.raw with
      | error e => simp [hd, onDecoded] at hs
      | ok i =>
        simp only [hd, onDecoded] at hs
        exact .inl ⟨c, rest, i, hq, rfl, hd, hs⟩
  next hq => exact .inr (.inr ⟨hq, hs⟩)

/-- An iteration of a running block is the row selected by `STATE` and the arriving levels. -/
theorem step_iteration {s : State} (hf : s.fault = .none) (hq : s.seq = .start) (hc : s.calls = []) :
    step s = exec (selectIteration s.state (arrive s).btnReset (arrive s).btnCount) (arrive s) := by
  simp [step, unlessHalted_running hf, hq, nextFetch, hc, iterationWord, decode_f4Bits, onDecoded]

/-- A directly driven operation of a running block is the row its word decodes to. -/
theorem step_call {s : State} {c : Call} {rest : List Call} (hf : s.fault = .none) (hq : s.seq = .start)
    (hc : s.calls = c :: rest) :
    step s = onDecoded (decode s.params.codes c.raw) (fun i => exec i { s with calls := rest }) := by
  simp [step, unlessHalted_running hf, hq, nextFetch, hc]

/-- `runSteps` is the host's own run of this machine. -/
theorem runSteps_eq_run (k : Nat) (s : State) : runSteps k s = Sys2Proof.core.run k s := by
  induction k generalizing s with
  | zero => rfl
  | succ k ih =>
    simp only [runSteps, Host.Core.run]
    have hs : Sys2Proof.core.step s = step s := rfl
    cases h : step s with
    | next t => rw [h] at hs; rw [hs]; exact ih t
    | fault r => rw [h] at hs; rw [hs]; rfl
    | refused r => rw [h] at hs; rw [hs]; rfl

end Sys2Proof.Machine
end

