-- ==== Sys2Proof/Laws/Bridge.lean ====
section
/-! SUPPORT. The terms of Safety.lean, written out from the spec, and the model's own operations agree: sequences,
frames, digits, table entries, whole renders, and how a harness reads them. -/

namespace Sys2Proof.Machine

/-- The frame written out from the levels it sends, for every width (R82). -/
theorem frameOf_sentBits (bo : BitOrder) (w : PatternWidth) (p : Pattern) :
    frameOf (sentBits bo w p) = frame bo w p := by
  obtain ⟨q⟩ := w
  cases bo <;>
    match q with
    | 0 => rfl
    | 1 => rfl
    | 2 => rfl
    | 3 => rfl
    | 4 => rfl
    | 5 => rfl
    | 6 => rfl
    | 7 => rfl

/-- At a width of eight the whole pattern is sent (R43). -/
theorem sentBits_full {w : PatternWidth} (h : w.toNat = 8) (bo : BitOrder) (p : Pattern) :
    sentBits bo w p = sentSequence bo p := by
  rw [PatternWidth.eq_eightBits h]
  cases bo <;> rfl

theorem frameOf_sentSequence (bo : BitOrder) (p : Pattern) : frameOf (sentSequence bo p) = frame bo eightBits p := by
  rw [← sentBits_full (w := eightBits) rfl, frameOf_sentBits]

/-- A digit is one of the table's ten, the radix being at most ten (R111). -/
theorem digitAt_lt (r : Radix) (n : Nat) (i : Position) : digitAt r n i < 10 :=
  (digitOf r (n / weightOf r i)).isLt

theorem decimalDigits_eq (r : Radix) (n : Nat) : decimalDigits r n = digitsOf r n := by
  have h : ∀ q, q % r.toNat % 10 = q % r.toNat := fun q => Nat.mod_eq_of_lt (digitOf r q).isLt
  simp [decimalDigits, digitsOf, digitOf, Fin.ext_iff, digitAt, weightOf, Nat.div_div_eq_div_mul, h]

theorem segmentOf_eq_entry (ps : Params) (d : Fin 10) : segmentOf ps d = (segTable ps).getD d.val 0 := by
  match d with
  | 0 => rfl
  | 1 => rfl
  | 2 => rfl
  | 3 => rfl
  | 4 => rfl
  | 5 => rfl
  | 6 => rfl
  | 7 => rfl
  | 8 => rfl
  | 9 => rfl

theorem segmentOf_digit (ps : Params) (n : Nat) (i : Position) :
    segmentOf ps ((decimalDigits ps.radix n).get i) = patternAt ps n i := by
  rw [decimalDigits_eq, segmentOf_eq_entry]
  cases i <;> simp [patternAt, digitsOf, PerPosition.get, Nat.mod_eq_of_lt (digitAt_lt ps.radix n _)]

theorem renderTrace_eq (bo : BitOrder) (ps : Params) (n : Nat) :
    renderTrace bo ps n = renderEvents bo ps (decimalDigits ps.radix n) := by
  simp [renderTrace, renderEvents, positionsOf, positionEvents, positionTrace, illuminate, frameOf_sentBits,
    segmentOf_digit]

/-- `SHIFTOUT` of either order is its frame, with two distinct codes (R82). -/
theorem exec_shiftoutOf (bo : BitOrder) (p : Pattern) {s : State} (hf : s.fault = .none)
    (hc : s.params.codes.distinct) :
    exec (shiftoutOf bo p) s = .next (runEvents (frame bo s.params.patternWidth p) s) := by
  rw [← shiftout_valid (orderOfCode_code hc bo) p]
  cases bo <;> exact whileRunning_running hf _

/-- `RENDER` of either order is its events, with two distinct codes (R112). -/
theorem exec_renderOf (bo : BitOrder) (n : Nat) {s : State} (hf : s.fault = .none)
    (hc : s.params.codes.distinct) :
    exec (renderOf bo n) s =
      .next (runEvents (renderEvents bo s.params (decimalDigits s.params.radix n)) (decompose n s)) := by
  rw [← render_valid (orderOfCode_code hc bo) n hf]
  cases bo <;> exact whileRunning_running hf _

/-- The harness on the shifter's lines knows what the external register holds, event by event (R24). -/
theorem probeOf_applyEvent (e : Event) (s : State) : probeOf (applyEvent e s) = (probeOf s).follow e := by
  rcases e with ⟨l, v⟩ | t
  · cases l <;> cases v <;> cases hc : s.clock <;> cases hl : s.latch <;>
      simp [probeOf, applyEvent, record, writeLine, writeClock, writeLatch, Probe.follow, hc, hl, shiftIn] <;>
      (apply BitVec.eq_of_getLsbD_eq; intro j hj;
       have : j = 0 ∨ j = 1 ∨ j = 2 ∨ j = 3 ∨ j = 4 ∨ j = 5 ∨ j = 6 ∨ j = 7 := by omega
       rcases this with h | h | h | h | h | h | h | h <;> subst h <;> simp)
  · rfl

theorem replayDigits_append (d : PerPosition Level) (a b : List Event) :
    replayDigits d (a ++ b) = replayDigits (replayDigits d a) b := by
  induction a generalizing d with
  | nil => rfl
  | cons e rest ih =>
    rcases e with ⟨l, v⟩ | t
    · cases l <;> simp [replayDigits, ih]
    · simp [replayDigits, ih]

/-- The digit lines after events are what the trace of those events says. -/
theorem runEvents_digitEn (es : List Event) (s : State) :
    (runEvents es s).digitEn = replayDigits s.digitEn es := by
  induction es generalizing s with
  | nil => rfl
  | cons e rest ih =>
    rw [runEvents, ih]
    rcases e with ⟨l, v⟩ | t
    · cases l <;> rfl
    · rfl

end Sys2Proof.Machine
end

