-- ==== Sys2Proof/Laws/Decode.lean ====
section
/-! SUPPORT. What the decoder reads from a word whose fields are given: the rows of `S10` and `R2` under any two codes
of the bit orders (R61, R70). -/

namespace Sys2Proof

/-- The fields of an `S10` word put together from a code and a pattern (R70). -/
theorem s10_fields (bo : Nat) (hb : bo < 4) (p : Pattern) :
    (BitVec.extractLsb' 8 2 (BitVec.ofNat 10 (0x100 * bo + p.toNat))).toNat = bo ∧
    BitVec.extractLsb' 0 8 (BitVec.ofNat 10 (0x100 * bo + p.toNat)) = p ∧ 0x100 * bo + p.toNat < 1024 := by
  have := p.isLt
  refine ⟨?_, ?_, by omega⟩
  · simp [BitVec.extractLsb'_toNat, Nat.shiftRight_eq_div_pow]
    omega
  · apply BitVec.eq_of_toNat_eq
    simp [BitVec.extractLsb'_toNat]
    omega

/-- The row of an `S10` word: that of its code (R61, R71). -/
theorem decode_s10 (c : OrderCodes) (bo : Nat) (hb : bo < 4) (p : Pattern) :
    decode c (.s10 (0x100 * bo + p.toNat)) =
      .ok (if bo = c.msbFirst then .shiftoutMsb p
        else if bo = c.lsbFirst then .shiftoutLsb p else .shiftoutBadorder bo p) := by
  obtain ⟨hbo, hp, hw⟩ := s10_fields bo hb p
  refine (if_pos (show _ < 2 ^ 10 from hw)).trans ?_
  simp only [decodeS10, hbo, hp]

/-- The row of an `R2` word: that of its code (R61, R71). -/
theorem decode_r2 (c : OrderCodes) (bo : Nat) (hb : bo < 4) (n : Nat) :
    decode c (.r2 bo n) =
      .ok (if bo = c.msbFirst then .renderMsb n
        else if bo = c.lsbFirst then .renderLsb n else .renderBadorder bo n) := by
  refine (if_pos (show _ < 2 ^ 2 from hb)).trans ?_
  have hbo : (BitVec.ofNat 2 bo).toNat = bo := by
    simp
    omega
  simp only [decodeR2, hbo]

end Sys2Proof
end

