-- ==== Sys2Proof/Laws/PerInstr.lean ====
section
/-! SUPPORT. Statements made once per constructor of `Instr`.  Family `EncodeFits`: the word of a well-formed
instruction has no more bits than its format (R69, R70, R71). -/

namespace Sys2Proof.Laws.EncodeFits

/-- The encoding of a well-formed instruction fits its format, whatever the codes of the two bit orders are. -/
def Statement (i : Instr) : Prop :=
  ∀ c : OrderCodes, i.wellFormed c = true → (encode c i).bits < 2 ^ (encode c i).format.width

theorem shiftoutMsb (p) : Statement (.shiftoutMsb p) := by
  intro c h
  have := p.isLt
  have : c.msbFirst < 4 := by
    simpa [Instr.wellFormed, OrderCodes.msbFits, OrderCodes.lsbFits, OrderCodes.badFits] using h
  simp only [encode, RawWord.bits, RawWord.format, Format.width]
  omega

theorem shiftoutLsb (p) : Statement (.shiftoutLsb p) := by
  intro c h
  have := p.isLt
  have : c.lsbFirst < 4 ∧ c.lsbFirst ≠ c.msbFirst := by
    simpa [Instr.wellFormed, OrderCodes.msbFits, OrderCodes.lsbFits, OrderCodes.badFits] using h
  simp only [encode, RawWord.bits, RawWord.format, Format.width]
  omega

theorem shiftoutBadorder (bo p) : Statement (.shiftoutBadorder bo p) := by
  intro c h
  have := p.isLt
  have : bo < 4 ∧ bo ≠ c.msbFirst ∧ bo ≠ c.lsbFirst := by
    simpa [Instr.wellFormed, OrderCodes.msbFits, OrderCodes.lsbFits, OrderCodes.badFits] using h
  simp only [encode, RawWord.bits, RawWord.format, Format.width]
  omega

theorem encode0 : Statement .encode0 := by
  intro c _
  exact Nat.le_of_ble_eq_true rfl

theorem encode1 : Statement .encode1 := by
  intro c _
  exact Nat.le_of_ble_eq_true rfl

theorem encode2 : Statement .encode2 := by
  intro c _
  exact Nat.le_of_ble_eq_true rfl

theorem encode3 : Statement .encode3 := by
  intro c _
  exact Nat.le_of_ble_eq_true rfl

theorem encode4 : Statement .encode4 := by
  intro c _
  exact Nat.le_of_ble_eq_true rfl

theorem encode5 : Statement .encode5 := by
  intro c _
  exact Nat.le_of_ble_eq_true rfl

theorem encode6 : Statement .encode6 := by
  intro c _
  exact Nat.le_of_ble_eq_true rfl

theorem encode7 : Statement .encode7 := by
  intro c _
  exact Nat.le_of_ble_eq_true rfl

theorem encode8 : Statement .encode8 := by
  intro c _
  exact Nat.le_of_ble_eq_true rfl

theorem encode9 : Statement .encode9 := by
  intro c _
  exact Nat.le_of_ble_eq_true rfl

theorem encodeRangeA (d) : Statement (.encodeRangeA d) := by
  intro c h
  have : d = 10 ∨ d = 11 := by simpa [Instr.wellFormed] using h
  simp only [encode, RawWord.bits, RawWord.format, Format.width]
  omega

theorem encodeRangeB (d) : Statement (.encodeRangeB d) := by
  intro c h
  have : ((d = 12 ∨ d = 13) ∨ d = 14) ∨ d = 15 := by simpa [Instr.wellFormed] using h
  simp only [encode, RawWord.bits, RawWord.format, Format.width]
  omega

theorem renderMsb (n) : Statement (.renderMsb n) := by
  intro c h
  have : c.msbFirst < 4 := by
    simpa [Instr.wellFormed, OrderCodes.msbFits, OrderCodes.lsbFits, OrderCodes.badFits] using h
  simp only [encode, RawWord.bits, RawWord.format, Format.width]
  omega

theorem renderLsb (n) : Statement (.renderLsb n) := by
  intro c h
  have : c.lsbFirst < 4 ∧ c.lsbFirst ≠ c.msbFirst := by
    simpa [Instr.wellFormed, OrderCodes.msbFits, OrderCodes.lsbFits, OrderCodes.badFits] using h
  simp only [encode, RawWord.bits, RawWord.format, Format.width]
  omega

theorem renderBadorder (bo n) : Statement (.renderBadorder bo n) := by
  intro c h
  have : bo < 4 ∧ bo ≠ c.msbFirst ∧ bo ≠ c.lsbFirst := by
    simpa [Instr.wellFormed, OrderCodes.msbFits, OrderCodes.lsbFits, OrderCodes.badFits] using h
  simp only [encode, RawWord.bits, RawWord.format, Format.width]
  omega

theorem iterIdleNone : Statement .iterIdleNone := by
  intro c _
  exact Nat.le_of_ble_eq_true rfl

theorem iterIdleCount (rb) : Statement (.iterIdleCount rb) := by
  intro c _
  cases rb <;> exact Nat.le_of_ble_eq_true rfl

theorem iterIdleReset : Statement .iterIdleReset := by
  intro c _
  exact Nat.le_of_ble_eq_true rfl

theorem iterCountingRelease (rb) : Statement (.iterCountingRelease rb) := by
  intro c _
  cases rb <;> exact Nat.le_of_ble_eq_true rfl

theorem iterCountingHold (rb) : Statement (.iterCountingHold rb) := by
  intro c _
  cases rb <;> exact Nat.le_of_ble_eq_true rfl

theorem iterResettingRelease (cb) : Statement (.iterResettingRelease cb) := by
  intro c _
  cases cb <;> exact Nat.le_of_ble_eq_true rfl

theorem iterResettingHold (cb) : Statement (.iterResettingHold cb) := by
  intro c _
  cases cb <;> exact Nat.le_of_ble_eq_true rfl

theorem iterBadstate (rb cb) : Statement (.iterBadstate rb cb) := by
  intro c _
  cases rb <;> cases cb <;> exact Nat.le_of_ble_eq_true rfl

end Sys2Proof.Laws.EncodeFits
end

