-- ==== Sys2Proof/Laws/Sequencer.lean ====
section
/-! SUPPORT. The event grain: a tick inside an operation is its next event, and settling a frame or a position is
running its events. -/

namespace Sys2Proof.Machine

/-- A tick inside a frame or a `RENDER` performs the event that comes next and advances `SEQ`. -/
theorem tick_event {s : State} {e : Event} (hf : s.fault = .none) (he : eventNow s = some e) :
    tick s = .next (withSeq (seqNext s.params s.seq) (applyEvent e s)) := by
  unfold tick
  rw [unlessHalted_running hf]
  have hq := he
  unfold eventNow at hq
  cases hs : s.seq <;> simp_all

theorem eventNow_not_start {s : State} {e : Event} (he : eventNow s = some e) : s.seq ≠ .start := by
  intro h
  simp [eventNow, h] at he

theorem settle_event {s : State} {e : Event} (k : Nat) (hf : s.fault = .none) (he : eventNow s = some e) :
    settle (k + 1) s = settle k (withSeq (seqNext s.params s.seq) (applyEvent e s)) := by
  simp only [settle, if_neg (eventNow_not_start he), tick_event hf he]

/-- An operation that has ended stays as it is. -/
theorem settle_start {s : State} (k : Nat) (h : s.seq = .start) : settle k s = .next s := by
  cases k <;> simp [settle, h]

/-- An event neither reads nor writes `SEQ`. -/
theorem applyEvent_withSeq (e : Event) (sq : Seq) (s : State) :
    applyEvent e (withSeq sq s) = withSeq sq (applyEvent e s) := by
  rcases e with ⟨l, v⟩ | t
  · cases l <;> rfl
  · rfl

theorem runEvents_withSeq (es : List Event) (sq : Seq) (s : State) :
    runEvents es (withSeq sq s) = withSeq sq (runEvents es s) := by
  induction es generalizing s with
  | nil => rfl
  | cons e rest ih => simp only [runEvents, applyEvent_withSeq, ih]

@[simp] theorem withSeq_withSeq (a b : Seq) (s : State) : withSeq a (withSeq b s) = withSeq a s := rfl

theorem withSeq_self {s : State} {sq : Seq} (h : s.seq = sq) : withSeq sq s = s := by
  subst h; rfl

/-- Where the steps of a frame lie in the sequencer: `sq` places them, `p` is the pattern, `fin` follows the last. -/
structure FramePath (bo : BitOrder) (p : Pattern) (ps : Params) (dg : PerPosition (Fin 10))
    (sq : FrameStep → Seq) (fin : Seq) : Prop where
  event : ∀ (f : FrameStep) (u : State), u.params = ps → u.dig = dg → u.seq = sq f →
    eventNow u = some (frameEvent bo ps.patternWidth p f)
  next : ∀ f f', frameNext ps.patternWidth f = some f' → seqNext ps (sq f) = sq f'
  last : seqNext ps (sq .latchLow) = fin

section
variable {bo : BitOrder} {p : Pattern} {ps : Params} {dg : PerPosition (Fin 10)} {sq : FrameStep → Seq} {fin : Seq}

theorem settle_frameStep (path : FramePath bo p ps dg sq fin) (f f' : FrameStep)
    (hn : frameNext ps.patternWidth f = some f') (k : Nat) (u : State) (hf : u.fault = .none) (hp : u.params = ps)
    (hd : u.dig = dg) :
    settle (k + 1) (withSeq (sq f) u) =
      settle k (withSeq (sq f') (applyEvent (frameEvent bo ps.patternWidth p f) u)) := by
  rw [settle_event (s := withSeq (sq f) u) k hf (path.event f _ hp hd rfl)]
  simp [applyEvent_withSeq, hp, path.next f f' hn]

theorem settle_cell (path : FramePath bo p ps dg sq fin) (j : Fin 8) (f' : FrameStep)
    (hn : frameNext ps.patternWidth (.clockLow j) = some f') (k : Nat) (u : State) (hf : u.fault = .none)
    (hp : u.params = ps) (hd : u.dig = dg) :
    settle (k + 3) (withSeq (sq (.data j)) u) =
      settle k (withSeq (sq f') (runEvents (bitCell (bitAt bo ps.patternWidth p j)) u)) := by
  rw [settle_frameStep path (.data j) (.clockHigh j) rfl (k + 2) u hf hp hd,
    settle_frameStep path (.clockHigh j) (.clockLow j) rfl (k + 1) _ (by simpa using hf) (by simpa using hp)
      (by simpa using hd),
    settle_frameStep path (.clockLow j) f' hn k _ (by simpa using hf) (by simpa using hp) (by simpa using hd)]
  rfl

/-- The cells from one on: that cell, then the cells after it; after the last, none. -/
theorem cells_drop : ∀ q j : Fin 8,
    (j.val ≤ q.val → (cells ⟨q⟩).drop j.val = j :: (cells ⟨q⟩).drop (j.val + 1)) ∧
      (cells ⟨q⟩).drop (q.val + 1) = [] := by
  decide

/-- The cells of a frame from cell `j` on, at event grain (R82). -/
theorem settle_cells (path : FramePath bo p ps dg sq fin) (m : Nat) (j : Fin 8)
    (hj : j.val + m = ps.patternWidth.pred.val) (k : Nat) (u : State) (hf : u.fault = .none) (hp : u.params = ps)
    (hd : u.dig = dg) :
    settle (k + 3 * (m + 1)) (withSeq (sq (.data j)) u) =
      settle k (withSeq (sq .latchHigh)
        (runEvents (cellEvents bo ps.patternWidth p ((cells ps.patternWidth).drop j.val)) u)) := by
  have hq := (cells_drop ps.patternWidth.pred j).1 (by omega)
  induction m generalizing j u with
  | zero =>
    have hl : (cells ps.patternWidth).drop (j.val + 1) = [] := by
      rw [show j.val = ps.patternWidth.pred.val by omega]; exact (cells_drop ps.patternWidth.pred j).2
    rw [settle_cell path j .latchHigh (by simp [frameNext]; omega) k u hf hp hd]
    rw [hl] at hq
    rw [hq]
    simp [cellEvents]
  | succ m ih =>
    have hlt : j.val < ps.patternWidth.pred.val := by omega
    have hn : frameNext ps.patternWidth (.clockLow j) =
        some (.data ⟨j.val + 1, Nat.lt_of_le_of_lt hlt ps.patternWidth.pred.isLt⟩) := by simp [frameNext, hlt]
    rw [show k + 3 * (m + 1 + 1) = (k + 3 * (m + 1)) + 3 by omega, settle_cell path j _ hn _ u hf hp hd,
      ih _ (by simp; omega) _ (by simpa using hf) (by simpa using hp) (by simpa using hd)
        ((cells_drop ps.patternWidth.pred _).1 (by simp; omega))]
    rw [hq]
    simp [cellEvents, runEvents_append]

/-- A whole frame at event grain is its events (R82). -/
theorem settle_frame (path : FramePath bo p ps dg sq fin) (k : Nat) (s : State) (hf : s.fault = .none)
    (hp : s.params = ps) (hd : s.dig = dg) :
    settle (k + (3 * ps.patternWidth.toNat + 2)) (withSeq (sq frameStart) s) =
      settle k (withSeq fin (runEvents (frame bo ps.patternWidth p) s)) := by
  rw [frameStart, show k + (3 * ps.patternWidth.toNat + 2) = (k + 2) + 3 * (ps.patternWidth.pred.val + 1) by
      simp [PatternWidth.toNat]; omega,
    settle_cells path ps.patternWidth.pred.val 0 (by simp) (k + 2) s hf hp hd,
    settle_frameStep path .latchHigh .latchLow rfl (k + 1) _ (by simpa using hf) (by simpa using hp)
      (by simpa using hd),
    settle_event k (e := frameEvent bo ps.patternWidth p .latchLow) (by simpa using hf)
      (path.event .latchLow _ (by simpa using hp) (by simpa using hd) rfl)]
  simp [applyEvent_withSeq, path.last, frame, runEvents_append, frameEvent, runEvents, hp]

end

/-- The frame of a directly driven `SHIFTOUT`. -/
theorem shiftPath (bo : BitOrder) (p : Pattern) (ps : Params) (dg : PerPosition (Fin 10)) :
    FramePath bo p ps dg (.shift bo p) .start where
  event f u hp _ hs := by simp [eventNow, hs, hp]
  next f f' h := by simp [seqNext, h]
  last := rfl

/-- The frame of a position of `RENDER`. -/
theorem renderPath (bo : BitOrder) (i : Position) (ps : Params) (dg : PerPosition (Fin 10)) :
    FramePath bo (segmentOf ps (dg.get i)) ps dg (fun f => .render bo i (.frame f)) (.render bo i .enable) where
  event f u hp hd hs := by simp [eventNow, hs, hp, hd]
  next f f' h := by simp [seqNext, h]
  last := rfl

/-- A whole position of `RENDER` at event grain is its events (R112). -/
theorem settle_position (bo : BitOrder) (i : Position) (k : Nat) (s : State) (hf : s.fault = .none) :
    settle (k + (3 * s.params.patternWidth.toNat + 5)) (withSeq (.render bo i (.frame frameStart)) s) =
      settle k (withSeq (seqNext s.params (.render bo i .disable))
        (runEvents (positionTrace bo s.params (s.dig.get i) i) s)) := by
  rw [show k + (3 * s.params.patternWidth.toNat + 5) = (k + 3) + (3 * s.params.patternWidth.toNat + 2) by omega,
    settle_frame (renderPath bo i s.params s.dig) (k + 3) s hf rfl rfl,
    settle_event (k + 2) (e := .write (.digitEn i) false) (by simpa using hf) rfl,
    settle_event (k + 1) (e := .delay s.params.tIllum) (by simpa using hf) (by simp [eventNow, seqNext]),
    settle_event k (e := .write (.digitEn i) true) (by simpa using hf) rfl]
  simp [applyEvent_withSeq, positionTrace, runEvents_append, illuminate, runEvents, seqNext]

/-- `rest` are the positions that the sequencer visits after `i`. -/
def VisitedAfter (n : DigitCount) (i : Position) : List Position → Prop
  | [] => positionNext n i = none
  | j :: rest => positionNext n i = some j ∧ VisitedAfter n j rest

/-- The sequencer visits the configured positions, ones first (R6, R45). -/
theorem positionsOf_visited (n : DigitCount) :
    ∃ rest, positionsOf n = .ones :: rest ∧ rest.length + 1 = n.toNat ∧ VisitedAfter n .ones rest := by
  obtain ⟨q⟩ := n
  match q with
  | 0 => exact ⟨[], rfl, rfl, rfl⟩
  | 1 => exact ⟨[.tens], rfl, rfl, rfl, rfl⟩
  | 2 => exact ⟨[.tens, .hundreds], rfl, rfl, rfl, rfl, rfl⟩
  | 3 => exact ⟨[.tens, .hundreds, .thousands], rfl, rfl, rfl, rfl, rfl, rfl⟩

/-- The rest of a `RENDER` at event grain, from the start of a position on (R112). -/
theorem settle_positions (bo : BitOrder) (rest : List Position) (i : Position) (k : Nat) (s : State)
    (hf : s.fault = .none) (hv : VisitedAfter s.params.numDigits i rest) :
    settle (k + (rest.length + 1) * (3 * s.params.patternWidth.toNat + 5))
        (withSeq (.render bo i (.frame frameStart)) s) =
      settle k (withSeq .start
        (runEvents ((i :: rest).flatMap (fun i => positionTrace bo s.params (s.dig.get i) i)) s)) := by
  induction rest generalizing i s with
  | nil =>
    have hn : positionNext s.params.numDigits i = none := hv
    simp only [List.length_nil, Nat.zero_add, Nat.one_mul]
    rw [settle_position bo i k s hf]
    simp [seqNext, hn]
  | cons j rest ih =>
    have hn : positionNext s.params.numDigits i = some j := hv.1
    rw [List.length_cons, Nat.add_mul (rest.length + 1) 1, Nat.one_mul, ← Nat.add_assoc, settle_position bo i _ s hf]
    have h := ih j (runEvents (positionTrace bo s.params (s.dig.get i) i) s) (by simpa using hf) (by simpa using hv.2)
    simp only [runEvents_params, runEvents_dig] at h
    simp only [seqNext, hn]
    rw [h]
    simp [runEvents_append]

/-- A whole `RENDER` at event grain is its events (R112, R121). -/
theorem settle_render (bo : BitOrder) (k : Nat) (s : State) (hf : s.fault = .none) :
    settle (k + eventsPerRender s.params) (withSeq (.render bo .ones (.frame frameStart)) s) =
      settle k (withSeq .start (runEvents (renderEvents bo s.params s.dig) s)) := by
  obtain ⟨rest, hp, hl, hv⟩ := positionsOf_visited s.params.numDigits
  rw [eventsPerRender, ← hl, settle_positions bo rest .ones k s hf hv, renderEvents, hp]

/-- A `RENDER` has at most 116 events, a frame at most 26. -/
theorem eventsPerRender_le (ps : Params) : eventsPerRender ps ≤ 116 := by
  have hn : ps.numDigits.toNat ≤ 4 := ps.numDigits.pred.isLt
  have hw : ps.patternWidth.toNat ≤ 8 := ps.patternWidth.pred.isLt
  exact Nat.mul_le_mul hn (show 3 * ps.patternWidth.toNat + 5 ≤ 29 by omega)

/-! ### How many ticks an operation has -/

/-- The ticks a frame still has. -/
def frameTicksLeft : FrameStep → Nat
  | .data j => 26 - 3 * j.val
  | .clockHigh j => 25 - 3 * j.val
  | .clockLow j => 24 - 3 * j.val
  | .latchHigh => 2
  | .latchLow => 1

/-- The ticks of the positions that follow one. -/
def positionTicksLeft : Position → Nat
  | .ones => 87
  | .tens => 58
  | .hundreds => 29
  | .thousands => 0

/-- The ticks an operation still has, from a position of the sequencer. -/
def ticksLeft : Seq → Nat
  | .start => 0
  | .sampleReset => 118
  | .transition => 117
  | .shift _ _ f => frameTicksLeft f
  | .render _ i (.frame f) => positionTicksLeft i + 3 + frameTicksLeft f
  | .render _ i .enable => positionTicksLeft i + 3
  | .render _ i .hold => positionTicksLeft i + 2
  | .render _ i .disable => positionTicksLeft i + 1

/-- A position that follows another has the ticks of one position fewer after it. -/
theorem positionNext_ticksLeft {n : DigitCount} {i j : Position} (h : positionNext n i = some j) :
    positionTicksLeft j + 29 = positionTicksLeft i := by
  cases i <;> simp [positionNext] at h <;> obtain ⟨_, rfl⟩ := h <;> rfl

/-- The event that comes next brings the end of its operation nearer. -/
theorem ticksLeft_seqNext (ps : Params) (sq : Seq) (h : sq ≠ .start) (h2 : sq ≠ .transition) :
    ticksLeft (seqNext ps sq) < ticksLeft sq := by
  cases sq with
  | start => exact absurd rfl h
  | sampleReset => simp [seqNext, ticksLeft]
  | transition => exact absurd rfl h2
  | shift bo p f =>
    cases f with
    | data j => simp [seqNext, frameNext, ticksLeft, frameTicksLeft]; omega
    | clockHigh j => simp [seqNext, frameNext, ticksLeft, frameTicksLeft]; omega
    | clockLow j =>
      by_cases hj : j.val < ps.patternWidth.pred.val
      · simp [seqNext, frameNext, ticksLeft, frameTicksLeft, hj]; omega
      · simp [seqNext, frameNext, ticksLeft, frameTicksLeft, hj]; omega
    | latchHigh => simp [seqNext, frameNext, ticksLeft, frameTicksLeft]
    | latchLow => simp [seqNext, frameNext, ticksLeft, frameTicksLeft]
  | render bo i r =>
    cases r with
    | frame f =>
      cases f with
      | data j => simp [seqNext, frameNext, ticksLeft, frameTicksLeft]; omega
      | clockHigh j => simp [seqNext, frameNext, ticksLeft, frameTicksLeft]; omega
      | clockLow j =>
        by_cases hj : j.val < ps.patternWidth.pred.val
        · simp [seqNext, frameNext, ticksLeft, frameTicksLeft, hj]; omega
        · simp [seqNext, frameNext, ticksLeft, frameTicksLeft, hj]; omega
      | latchHigh => simp [seqNext, frameNext, ticksLeft, frameTicksLeft]
      | latchLow => simp [seqNext, frameNext, ticksLeft, frameTicksLeft]
    | enable => simp [seqNext, ticksLeft]
    | hold => simp [seqNext, ticksLeft]
    | disable =>
      cases hn : positionNext ps.numDigits i with
      | none => simp [seqNext, hn, ticksLeft]
      | some j =>
        have := positionNext_ticksLeft hn
        simp [seqNext, hn, ticksLeft, frameTicksLeft, frameStart]
        omega

/-- An iteration's transition that answers a next state has begun its `RENDER` (R130). -/
theorem begin_iteration_next (st rb cb) (s t : State) (h : begin (selectIteration st rb cb) s = .next t) :
    st ≠ .reserved ∧ t = withSeq (.render (displayOrder s.params) .ones (.frame frameStart))
      (decompose (transitionOf st rb cb s).count (transitionOf st rb cb s)) := by
  have hb : ∀ u : State, beginCount u =
      withSeq (.render (displayOrder u.params) .ones (.frame frameStart)) (decompose u.count u) := fun u => by
    simp only [beginCount, beginRender, orderOfCode_display]
  cases st <;> cases rb <;> cases cb <;> simp [selectIteration, begin, hb] at h <;>
    exact ⟨by simp, by rw [← h]; rfl⟩

/-- Reading a position after one has been written. -/
theorem PerPosition_get_set (d : PerPosition Level) (i j : Position) (v : Level) :
    (d.set i v).get j = if j = i then v else d.get j := by
  cases i <;> cases j <;> rfl

/-- Two states have the same lines, the same external register and the same trace. -/
abbrev SameWires (t s : State) : Prop :=
  t.trace = s.trace ∧ t.data = s.data ∧ t.clock = s.clock ∧ t.latch = s.latch ∧ t.digitEn = s.digitEn ∧
    t.sr = s.sr ∧ t.q = s.q

theorem beginShiftout_wires (bo : Nat) (p : Pattern) (s : State) : SameWires (beginShiftout bo p s) s := by
  unfold beginShiftout; split <;> simp [SameWires, raise, withSeq]

theorem beginRender_wires (bo n : Nat) (s : State) : SameWires (beginRender bo n s) s := by
  unfold beginRender; split <;> simp [SameWires, raise, withSeq, decompose]

theorem encodeDigit_wires (d : Nat) (s : State) : SameWires (encodeDigit d s) s := by
  unfold encodeDigit; split <;> simp [SameWires, raise]

/-- The part of an operation before its first event has no event (R130). -/
theorem begin_wires {i : Instr} {s t : State} (h : begin i s = .next t) : SameWires t s := by
  cases i <;> simp only [begin, Host.Outcome.next.injEq, reduceCtorEq] at h <;> subst h <;>
    first | exact beginShiftout_wires _ _ _ | exact encodeDigit_wires _ _ | exact beginRender_wires _ _ _

/-- Every tick inside an operation brings its end nearer and raises no fault. -/
theorem tick_ticksLeft {s t : State} (h : tick s = .next t) (hs : s.seq ≠ .start) :
    ticksLeft t.seq < ticksLeft s.seq ∧ t.fault = .none := by
  obtain ⟨hf, ht⟩ := unlessHalted_next h
  by_cases h1 : s.seq = .sampleReset
  · simp [h1] at ht; subst ht; rw [h1]; exact ⟨by show ticksLeft .transition < _; decide, hf⟩
  by_cases h2 : s.seq = .transition
  · simp [h2, tickTransition, decode_f4Bits, onDecoded] at ht
    obtain ⟨hr, he⟩ := begin_iteration_next _ _ _ _ _ ht
    rw [h2, he]
    exact ⟨by simp [ticksLeft, positionTicksLeft, frameTicksLeft, frameStart],
      by simp [transitionOf_fault, hf]⟩
  have : ∃ e, eventNow s = some e := by
    unfold eventNow
    cases hq : s.seq with
    | render bo i r => cases r <;> simp
    | shift => simp
    | start => exact absurd hq hs
    | sampleReset => exact absurd hq h1
    | transition => exact absurd hq h2
  obtain ⟨e, he⟩ := this
  rw [tick_event hf he] at h
  cases h
  exact ⟨ticksLeft_seqNext _ _ hs h2, by simpa using hf⟩

/-- More ticks than the operation has change nothing. -/
theorem settle_enough (k : Nat) (s : State) (h : ticksLeft s.seq ≤ k) : settle (k + 1) s = settle k s := by
  induction k generalizing s with
  | zero =>
    have : s.seq = .start := by
      cases hq : s.seq with
      | start => rfl
      | sampleReset => simp [hq, ticksLeft] at h
      | transition => simp [hq, ticksLeft] at h
      | shift bo p f => cases f <;> simp [hq, ticksLeft, frameTicksLeft] at h <;> omega
      | render bo i r => cases r <;> simp [hq, ticksLeft] at h
    rw [settle_start _ this, settle_start _ this]
  | succ k ih =>
    by_cases hs : s.seq = .start
    · rw [settle_start _ hs, settle_start _ hs]
    · unfold settle
      simp only [if_neg hs]
      cases ht : tick s with
      | next t => exact ih t (by have := (tick_ticksLeft ht hs).1; omega)
      | fault r => rfl
      | refused r => rfl

/-- The fuel is enough from every position of the sequencer. -/
theorem ticksLeft_le (sq : Seq) : ticksLeft sq ≤ 118 := by
  cases sq with
  | start => decide
  | sampleReset => decide
  | transition => decide
  | shift bo p f => cases f <;> simp [ticksLeft, frameTicksLeft] <;> omega
  | render bo i r => cases r with
    | frame f => cases i <;> cases f <;> simp [ticksLeft, frameTicksLeft, positionTicksLeft] <;> omega
    | _ => cases i <;> simp [ticksLeft, positionTicksLeft]

/-- An operation that settles with enough ticks has ended. -/
theorem settle_ends (k : Nat) (s t : State) (h : ticksLeft s.seq ≤ k) (hs : settle k s = .next t) :
    t.seq = .start := by
  induction k generalizing s with
  | zero =>
    have : s.seq = .start := by
      cases hq : s.seq with
      | start => rfl
      | sampleReset => simp [hq, ticksLeft] at h
      | transition => simp [hq, ticksLeft] at h
      | shift bo p f => cases f <;> simp [hq, ticksLeft, frameTicksLeft] at h <;> omega
      | render bo i r => cases r <;> simp [hq, ticksLeft] at h
    rw [settle_start _ this] at hs; cases hs; exact this
  | succ k ih =>
    by_cases hq : s.seq = .start
    · rw [settle_start _ hq] at hs; cases hs; exact hq
    · unfold settle at hs
      simp only [if_neg hq] at hs
      cases ht : tick s with
      | next u => rw [ht] at hs; exact ih u (by have := (tick_ticksLeft ht hq).1; omega) hs
      | fault r => rw [ht] at hs; cases hs
      | refused r => rw [ht] at hs; cases hs

/-- A `RENDER` begun and finished at event grain is the `RENDER` of the coarse grain, for every code. -/
theorem finish_beginRender (bo n) (s : State) (hf : s.fault = .none) (hq : s.seq = .start) :
    finishOperation (beginRender bo n s) = .next (render bo n s) := by
  cases hb : orderOfCode s.params.codes bo with
  | none =>
    rw [render_invalid hb n hf]; simp only [beginRender, hb]; exact settle_start _ (by simpa using hq)
  | some o =>
    rw [render_valid hb n hf]; simp only [beginRender, hb]
    rw [finishOperation, show settleFuel = (128 - eventsPerRender (decompose n s).params) +
      eventsPerRender (decompose n s).params by
        have := eventsPerRender_le (decompose n s).params; simp only [settleFuel]; omega]
    rw [settle_render o _ (decompose n s) (by simpa using hf), settle_start _ rfl]
    rw [withSeq_self (by simpa using hq)]; rfl

/-- The same of `SHIFTOUT`. -/
theorem finish_beginShiftout (bo p) (s : State) (hf : s.fault = .none) (hq : s.seq = .start) :
    finishOperation (beginShiftout bo p s) = .next (shiftout bo p s) := by
  cases hb : orderOfCode s.params.codes bo with
  | none =>
    rw [shiftout_invalid hb]; simp only [beginShiftout, hb]; exact settle_start _ (by simpa using hq)
  | some o =>
    rw [shiftout_valid hb]; simp only [beginShiftout, hb]
    have hw : s.params.patternWidth.toNat ≤ 8 := s.params.patternWidth.pred.isLt
    rw [finishOperation, show settleFuel = (126 - 3 * s.params.patternWidth.toNat) +
      (3 * s.params.patternWidth.toNat + 2) by simp only [settleFuel]; omega]
    rw [settle_frame (shiftPath o p s.params s.dig) _ s hf rfl rfl, settle_start _ rfl]
    rw [withSeq_self (by simpa using hq)]

end Sys2Proof.Machine
end

