-- ==== Sys2Proof/Tests/Slice0.lean ====
section
/-! SUPPORT. The model's own tests. Expected values come from 95_test_vectors.md (the vector is named in each
docstring), or are written out from the encodings of 30_encoding.md; and a witness for every statement that has
hypotheses. -/

set_option maxRecDepth 20000

namespace Sys2Proof.Tests

open Sys2Proof Sys2Proof.Machine

/-! ### Ill-formed terms are refused -/

theorem test_wf_badorder_low :
    (Instr.shiftoutBadorder 1 0#8).wellFormed tableCodes = false := by decide

theorem test_wf_badorder_high :
    (Instr.shiftoutBadorder 4 0#8).wellFormed tableCodes = false := by decide

theorem test_wf_range_a :
    (Instr.encodeRangeA 9).wellFormed tableCodes = false ∧
      (Instr.encodeRangeA 12).wellFormed tableCodes = false := by decide

theorem test_wf_range_b :
    (Instr.encodeRangeB 11).wellFormed tableCodes = false ∧
      (Instr.encodeRangeB 16).wellFormed tableCodes = false := by decide

theorem test_wf_render_badorder :
    (Instr.renderBadorder 1 7).wellFormed tableCodes = false ∧
      (Instr.renderBadorder 4 7).wellFormed tableCodes = false := by decide

/-! ### Words written out from the opcode map (R71), one or more for each constructor -/

theorem test_decode_shiftout_msb :
    decode tableCodes (.s10 0b0011111100) = .ok (.shiftoutMsb 0xFC#8) := rfl

theorem test_decode_shiftout_lsb :
    decode tableCodes (.s10 0b0101100000) = .ok (.shiftoutLsb 0x60#8) := rfl

theorem test_decode_shiftout_badorder_2 :
    decode tableCodes (.s10 0b1011111100) = .ok (.shiftoutBadorder 2 0xFC#8) := rfl

theorem test_decode_shiftout_badorder_3 :
    decode tableCodes (.s10 0b1100000000) = .ok (.shiftoutBadorder 3 0x00#8) := rfl

theorem test_decode_encode_0 :
    decode tableCodes (.e4 0b0000) = .ok .encode0 := rfl

theorem test_decode_encode_1 :
    decode tableCodes (.e4 0b0001) = .ok .encode1 := rfl

theorem test_decode_encode_2 :
    decode tableCodes (.e4 0b0010) = .ok .encode2 := rfl

theorem test_decode_encode_3 :
    decode tableCodes (.e4 0b0011) = .ok .encode3 := rfl

theorem test_decode_encode_4 :
    decode tableCodes (.e4 0b0100) = .ok .encode4 := rfl

theorem test_decode_encode_5 :
    decode tableCodes (.e4 0b0101) = .ok .encode5 := rfl

theorem test_decode_encode_6 :
    decode tableCodes (.e4 0b0110) = .ok .encode6 := rfl

theorem test_decode_encode_7 :
    decode tableCodes (.e4 0b0111) = .ok .encode7 := rfl

theorem test_decode_encode_8 :
    decode tableCodes (.e4 0b1000) = .ok .encode8 := rfl

theorem test_decode_encode_9 :
    decode tableCodes (.e4 0b1001) = .ok .encode9 := rfl

theorem test_decode_range_a_10 :
    decode tableCodes (.e4 0b1010) = .ok (.encodeRangeA 10) := rfl

theorem test_decode_range_a_11 :
    decode tableCodes (.e4 0b1011) = .ok (.encodeRangeA 11) := rfl

theorem test_decode_range_b_12 :
    decode tableCodes (.e4 0b1100) = .ok (.encodeRangeB 12) := rfl

theorem test_decode_range_b_15 :
    decode tableCodes (.e4 0b1111) = .ok (.encodeRangeB 15) := rfl

theorem test_decode_render_msb :
    decode tableCodes (.r2 0b00 9019) = .ok (.renderMsb 9019) := rfl

theorem test_decode_render_lsb :
    decode tableCodes (.r2 0b01 27) = .ok (.renderLsb 27) := rfl

theorem test_decode_render_badorder_2 :
    decode tableCodes (.r2 0b10 9019) = .ok (.renderBadorder 2 9019) := rfl

theorem test_decode_render_badorder_3 :
    decode tableCodes (.r2 0b11 0) = .ok (.renderBadorder 3 0) := rfl

theorem test_decode_idle_none :
    decode tableCodes (.f4 0b0000) = .ok .iterIdleNone := rfl

theorem test_decode_idle_count :
    decode tableCodes (.f4 0b0001) = .ok (.iterIdleCount false) := rfl

theorem test_decode_idle_count_both :
    decode tableCodes (.f4 0b0011) = .ok (.iterIdleCount true) := rfl

theorem test_decode_idle_reset :
    decode tableCodes (.f4 0b0010) = .ok .iterIdleReset := rfl

theorem test_decode_counting_release :
    decode tableCodes (.f4 0b0100) = .ok (.iterCountingRelease false) := rfl

theorem test_decode_counting_release_reset :
    decode tableCodes (.f4 0b0110) = .ok (.iterCountingRelease true) := rfl

theorem test_decode_counting_hold :
    decode tableCodes (.f4 0b0101) = .ok (.iterCountingHold false) := rfl

theorem test_decode_counting_hold_reset :
    decode tableCodes (.f4 0b0111) = .ok (.iterCountingHold true) := rfl

theorem test_decode_resetting_release :
    decode tableCodes (.f4 0b1000) = .ok (.iterResettingRelease false) := rfl

theorem test_decode_resetting_release_count :
    decode tableCodes (.f4 0b1001) = .ok (.iterResettingRelease true) := rfl

theorem test_decode_resetting_hold :
    decode tableCodes (.f4 0b1010) = .ok (.iterResettingHold false) := rfl

theorem test_decode_resetting_hold_count :
    decode tableCodes (.f4 0b1011) = .ok (.iterResettingHold true) := rfl

theorem test_decode_badstate_10 :
    decode tableCodes (.f4 0b1110) = .ok (.iterBadstate true false) := rfl

theorem test_decode_badstate_01 :
    decode tableCodes (.f4 0b1101) = .ok (.iterBadstate false true) := rfl

/-- With the two codes the other way round, as R61 lets a configuration have them, the words change places. -/
theorem test_decode_codes_swapped :
    decode ⟨1, 0⟩ (.s10 0b0011111100) = .ok (.shiftoutLsb 0xFC#8) ∧
      decode ⟨1, 0⟩ (.r2 0b01 7) = .ok (.renderMsb 7) :=
  ⟨rfl, rfl⟩

theorem test_decode_too_wide_s10 :
    decode tableCodes (.s10 0x400) = .error (.wordTooWide .s10 0x400) := rfl

theorem test_decode_too_wide_r2 :
    decode tableCodes (.r2 4 0) = .error (.wordTooWide .r2 4) := rfl

theorem test_decode_too_wide_e4 :
    decode tableCodes (.e4 16) = .error (.wordTooWide .e4 16) := rfl

theorem test_decode_too_wide_f4 :
    decode tableCodes (.f4 16) = .error (.wordTooWide .f4 16) := rfl

theorem test_table_word_shiftout :
    decodeTableWord 16 0x2FC = some (.shiftoutBadorder 2 0xFC#8) := rfl

theorem test_table_word_iteration :
    decodeTableWord 8 0x7 = some (.iterCountingHold true) := rfl

/-! ### One instruction on a small state -/

/-- The start state of the vectors: reset, with the environment at SR = 0x5A, Q = 0xC3, and the registers that are
written before they are read at zero. -/
def start : State := { State.reset with sr := 0x5A#8, q := 0xC3#8, cb := false, rb := false, dig := .const 0 }

/-- The start state with the counter's registers set. -/
def counting (st : FsmState) (count pd : Nat) : State := { start with state := st, count := count, pd := pd }

/-- The state after an instruction that answers one. -/
def after (r : Result) : Option State :=
  match r with
  | .next t => some t
  | .fault _ => none
  | .refused _ => none

/-- The external register, the data line and the number of events after an instruction. -/
def wire (r : Result) : Option (Pattern × Pattern × Level × Nat) :=
  (after r).map (fun t => (t.sr, t.q, t.data, t.trace.length))

/-- The application registers after an instruction. -/
def registers (r : Result) : Option (FsmState × Nat × Nat) :=
  (after r).map (fun t => (t.state, t.count, t.pd))

/-- What each position showed, ones first, while it was lit. -/
def pins (r : Result) : Option (List Pattern) :=
  (after r).map (fun t => (shownBy (probeOf start) t.trace).map (fun x => x.2))

/-- V1. -/
theorem test_shiftout_msb :
    wire (exec (.shiftoutMsb 0xFC#8) start) = some (0xFC#8, 0xFC#8, false, 26) := by decide

/-- V11. -/
theorem test_shiftout_msb_low_bit :
    wire (exec (.shiftoutMsb 0x01#8) start) = some (0x01#8, 0x01#8, true, 26) := by decide

/-- V2. -/
theorem test_shiftout_lsb :
    wire (exec (.shiftoutLsb 0xFC#8) start) = some (0x3F#8, 0x3F#8, true, 26) := by decide

/-- V12. -/
theorem test_shiftout_lsb_low_bit :
    wire (exec (.shiftoutLsb 0x01#8) start) = some (0x80#8, 0x80#8, false, 26) := by decide

/-- V9. -/
theorem test_shiftout_badorder :
    exec (.shiftoutBadorder 2 0xFC#8) start = .next { start with fault := .configError 2 } := rfl

/-- V16, events 8 and 24. -/
theorem test_first_eight_events :
    (runEvents ((frame .lsbFirst eightBits 0xE6#8).take 8) start).sr = 0xD3#8 ∧
    (runEvents ((frame .lsbFirst eightBits 0xE6#8).take 24) start).q = 0xC3#8 := by decide

/-- A block of other sizes than this hardware's (R6): two positions, three bits. -/
def smallBlock : State := { start with params := { defaultParams with numDigits := ⟨1⟩, patternWidth := ⟨2⟩ } }

/-- R6, R82: a frame of three bits has 3 × 3 + 2 events; by hand, 0x5A shifted three times with 1, 0, 1 is 0xD5. -/
theorem test_shiftout_three_bits :
    wire (exec (.shiftoutMsb 0x05#8) smallBlock) = some (0xD5#8, 0xD5#8, true, 11) := by decide

/-- R6, R112: two positions of three bits have 2 × 14 events, and only the ones and the tens are lit. -/
theorem test_render_two_positions :
    (after (exec (.renderLsb 9019) smallBlock)).map (fun t =>
      (t.trace.length, (shownBy (probeOf smallBlock) t.trace).map (fun x => x.1))) =
      some (28, [.ones, .tens]) := by decide +kernel

/-- V20. -/
theorem test_encode_0 :
    exec .encode0 start = .next { start with returned := some 0xFC#8 } := rfl

/-- V21. -/
theorem test_encode_1 :
    exec .encode1 start = .next { start with returned := some 0x60#8 } := rfl

/-- V22. -/
theorem test_encode_2 :
    exec .encode2 start = .next { start with returned := some 0xDA#8 } := rfl

/-- V23. -/
theorem test_encode_3 :
    exec .encode3 start = .next { start with returned := some 0xF2#8 } := rfl

/-- V24. -/
theorem test_encode_4 :
    exec .encode4 start = .next { start with returned := some 0x66#8 } := rfl

/-- V25. -/
theorem test_encode_5 :
    exec .encode5 start = .next { start with returned := some 0xB6#8 } := rfl

/-- V26. -/
theorem test_encode_6 :
    exec .encode6 start = .next { start with returned := some 0xBE#8 } := rfl

/-- V27. -/
theorem test_encode_7 :
    exec .encode7 start = .next { start with returned := some 0xE0#8 } := rfl

/-- V28. -/
theorem test_encode_8 :
    exec .encode8 start = .next { start with returned := some 0xFE#8 } := rfl

/-- V29. -/
theorem test_encode_9 :
    exec .encode9 start = .next { start with returned := some 0xE6#8 } := rfl

/-- V30a. -/
theorem test_encode_range_a :
    exec (.encodeRangeA 10) start = .next { start with fault := .digitRange 10 } := rfl

/-- V30d. -/
theorem test_encode_range_b :
    exec (.encodeRangeB 15) start = .next { start with fault := .digitRange 15 } := rfl

/-- V31. -/
theorem test_render_lsb :
    pins (exec (.renderLsb 9019) start) = some [0x67#8, 0x06#8, 0x3F#8, 0x67#8] := by decide +kernel

/-- V40. -/
theorem test_render_msb :
    pins (exec (.renderMsb 9019) start) = some [0xE6#8, 0x60#8, 0xFC#8, 0xE6#8] := by decide +kernel

/-- V39. -/
theorem test_render_truncates :
    pins (exec (.renderLsb 123456) start) = some [0x7D#8, 0x6D#8, 0x66#8, 0x4F#8] := by decide +kernel

/-- V41: dark, no event. -/
theorem test_render_badorder :
    exec (.renderBadorder 2 9019) start =
      .next { start with fault := .configError 2, dig := ⟨9, 1, 0, 9⟩ } := rfl

/-- V43. -/
theorem test_idle_none :
    registers (exec (.iterIdleNone) (counting .idle 9 0)) = some (.idle, 9, 0) := by decide +kernel

/-- V44. -/
theorem test_idle_count :
    registers (exec (.iterIdleCount false) (counting .idle 0 17)) = some (.counting, 1, 0) := by decide +kernel

/-- V45. -/
theorem test_idle_count_both :
    registers (exec (.iterIdleCount true) (counting .idle 9 0)) = some (.counting, 10, 0) := by decide +kernel

/-- V46. -/
theorem test_idle_reset :
    registers (exec (.iterIdleReset) (counting .idle 919 5)) = some (.resetting, 0, 5) := by decide +kernel

/-- V47b. -/
theorem test_counting_release :
    registers (exec (.iterCountingRelease true) (counting .counting 1 4)) = some (.idle, 1, 4) := by decide +kernel

/-- V48b. -/
theorem test_counting_hold_below :
    registers (exec (.iterCountingHold false) (counting .counting 1 28)) = some (.counting, 1, 29) := by decide +kernel

/-- V48c. -/
theorem test_counting_hold_first :
    registers (exec (.iterCountingHold false) (counting .counting 1 29)) = some (.counting, 2, 30) := by decide +kernel

/-- V49b. -/
theorem test_resetting_release :
    registers (exec (.iterResettingRelease true) (counting .resetting 0 5)) = some (.idle, 0, 5) := by decide +kernel

/-- V49d. -/
theorem test_resetting_hold :
    registers (exec (.iterResettingHold true) (counting .resetting 0 5)) = some (.resetting, 0, 5) := by decide +kernel

/-- V49e. -/
theorem test_badstate :
    exec (.iterBadstate true false) start = .refused (.reservedState true false) := rfl

/-- V60. -/
theorem test_halted_runs_nothing :
    exec .iterIdleNone { start with fault := .configError 2 } = .fault (.configErrorHalt 2) := rfl

/-- R18, R47: the count button is sampled first, as an action of its own. -/
theorem test_tick_samples_count :
    tick { start with stimulus := [⟨true, false⟩] } =
      .next { start with btnReset := true, btnCount := false, cb := false, seq := .sampleReset } := rfl

/-- R24: the latch's rise copies the shift stage at once. -/
theorem test_tick_latch_commits :
    (after (tick { start with seq := .render .lsbFirst .ones (.frame .latchHigh) })).map (fun t => (t.q, t.seq)) =
      some (0x5A#8, .render .lsbFirst .ones (.frame .latchLow)) := by decide

/-- P7, call 1: a placed word is the next to run. -/
theorem test_placed_word_is_next :
    step (start.withFetchWord 16 0x1FC) = exec (.shiftoutLsb 0xFC#8) start := rfl

/-! ### Witnesses: a concrete state and operands that meet the hypotheses of each statement together -/

/-- Inside the hold of the tens position of a `RENDER` of 9019. -/
def holding : State :=
  { start with
    count := 9019, dig := ⟨9, 1, 0, 9⟩, digitEn := ⟨true, false, true, true⟩, sr := 0x06#8, q := 0x06#8,
    seq := .render .lsbFirst .tens .hold }

/-- At the start of an iteration in a state of the counter, with the samples `rb` and `cb` to come. -/
def sampling (st : FsmState) (rb cb : Level) : State := { counting st 0 29 with stimulus := [⟨rb, cb⟩] }

theorem witness_DecodeOfEncode :
    (Instr.shiftoutBadorder 3 0xFF#8).wellFormed tableCodes = true ∧
      (Instr.encodeRangeA 11).wellFormed tableCodes = true ∧
      (Instr.encodeRangeB 12).wellFormed tableCodes = true ∧ (Instr.renderBadorder 2 9019).wellFormed tableCodes = true ∧
      (Instr.iterBadstate true true).wellFormed tableCodes = true := by decide

theorem witness_EveryWordMatchesOneRow :
    (RawWord.s10 1023).bits < 2 ^ (RawWord.s10 1023).format.width ∧
      ¬ (RawWord.s10 1024).bits < 2 ^ (RawWord.s10 1024).format.width := by decide

/-- A code of each kind: the first, the second, and the last of the field. -/
theorem witness_OrderCodesComeFromConfiguration :
    tableCodes.distinct ∧ (0 : Nat) < 4 ∧ 0 = tableCodes.msbFirst ∧ 1 = tableCodes.lsbFirst ∧ 3 < 4 ∧
      3 ≠ tableCodes.msbFirst ∧ 3 ≠ tableCodes.lsbFirst := by decide

theorem witness_EncodeOfDecode :
    decode tableCodes (.s10 0x3FF) = .ok (.shiftoutBadorder 3 0xFF#8) ∧ decode tableCodes (.r2 3 9999) =
      .ok (.renderBadorder 3 9999) := ⟨rfl, rfl⟩

/-- Each of the three clauses: a word that decodes, a word that does not, an iteration. -/
theorem witness_StepRunsDecodedInstruction :
    start.fault = .none ∧ start.seq = .start ∧
    ({ start with calls := [.render 1 9019, .encode 0] } : State).calls = .render 1 9019 :: [.encode 0] ∧
    decode tableCodes (Call.render 1 9019).raw = .ok (.renderLsb 9019) ∧
    ({ start with calls := [.shiftout 1024] } : State).calls = .shiftout 1024 :: [] ∧
    decode tableCodes (Call.shiftout 1024).raw = .error (.wordTooWide .s10 1024) ∧
    (sampling .counting true true).calls = [] ∧
    decode tableCodes (.f4 (4 * (sampling .counting true true).state.code +
      2 * (arrive (sampling .counting true true)).btnReset.toNat +
      (arrive (sampling .counting true true)).btnCount.toNat)) = .ok (.iterCountingHold true) :=
  ⟨rfl, rfl, rfl, rfl, rfl, rfl, rfl, rfl⟩

theorem witness_StimulusReachesButtons :
    (sampling .idle true false).stimulus = ⟨true, false⟩ :: [] ∧ start.stimulus = [] := ⟨rfl, rfl⟩

theorem witness_StepRunsPlacedWord :
    start.fault = .none ∧ start.params.codes = tableCodes ∧
      decodeTableWord 10 0x3FF = some (.shiftoutBadorder 3 0xFF#8) ∧
      isIteration (.shiftoutBadorder 3 0xFF#8) = false ∧
      decodeTableWord 4 0xF = some (.iterBadstate true true) ∧ isIteration (.iterBadstate true true) = true :=
  ⟨rfl, rfl, rfl, rfl, rfl, rfl⟩

/-- For ShiftoutMsbResult, ShiftoutLsbResult, LatchCommitsAtOnce, RenderedDigitsReadBack; and the hypotheses of
RoundTripOfReversal, RenderResult, RenderEventCounts and the `ITER` statements. -/
theorem witness_ShiftoutResults :
    FullSize start.params ∧ start.params.patternWidth.toNat = 8 ∧ start.params.codes.distinct ∧
      start.fault = .none ∧ start.clock = false ∧ start.latch = false :=
  ⟨⟨rfl, rfl⟩, rfl, by decide, rfl, rfl, rfl⟩

/-- Other sizes than this hardware's, with the last bit of a frame of three and a position on each side of the
second; and this hardware's sizes. -/
theorem witness_ConfiguredSizes :
    smallBlock.params.codes.distinct ∧ smallBlock.fault = .none ∧
      2 < smallBlock.params.patternWidth.toNat ∧
      Position.tens ∈ Position.all.take smallBlock.params.numDigits.toNat ∧
      Position.hundreds ∈ Position.all.drop smallBlock.params.numDigits.toNat ∧
      FullSize start.params ∧ start.params.codes.distinct ∧ start.fault = .none := by decide

theorem witness_ShiftoutLsb_lastBit :
    (7 : Nat) < 8 ∧ (rev8 0x01#8).getLsbD 7 = true := by decide

theorem witness_FrameFromAnyLevels :
    ({ start with clock := true, latch := true } : State).fault = .none ∧ start.params.patternWidth.toNat = 8 ∧
      start.params.codes.distinct ∧ (6 : Nat) < 7 :=
  ⟨rfl, rfl, by decide, by decide⟩

/-- For BadOrderHaltsShiftout and BadOrderHaltsRender, at the first invalid code. -/
theorem witness_BadOrderHalts :
    2 ≠ start.params.codes.msbFirst ∧ 2 ≠ start.params.codes.lsbFirst ∧ start.fault = .none := by decide

/-- The last event of the first clause and the first of the second. -/
theorem witness_LatchCommitsAtOnce :
    (24 : Nat) ≤ 24 ∧ (25 : Nat) ≤ 25 ∧
      (runEvents ((frameOf (sentSequence .msbFirst 0xE6#8)).take 24) start).q = 0xC3#8 ∧
      (runEvents ((frameOf (sentSequence .msbFirst 0xE6#8)).take 25) start).q = 0xE6#8 := by decide

/-- The last cell, its last event. -/
theorem witness_DataSteadyAroundClock :
    (7 : Nat) < 8 ∧ (1 : Nat) ≤ 3 ∧ (3 : Nat) ≤ 3 ∧
      (runEvents ((frameOf (sentSequence .msbFirst 0xE6#8)).take (3 * 7 + 3)) start).data = false := by decide

/-- For EncodeReturnsEntry, DecompositionIsDecimal, RenderTruncates, and the trace clause of the `ITER` statements. -/
theorem witness_ThisHardware :
    ThisHardware start.params ∧ start.fault = .none ∧ 919 = 10919 % start.params.radix.toNat ^ 4 := by decide

/-- The first digit out of range. -/
theorem witness_DigitOutOfRangeHalts :
    9 < 10 ∧ start.fault = .none := by decide

/-- The entries of the default table are distinct. -/
theorem witness_RenderedDigitsReadBack :
    (segTable start.params).Nodup ∧ (9 : Nat) < 10 ∧ 9 = digitAt start.params.radix 9019 .ones := by decide

/-- Inside a `RENDER`, so that the trace a step adds is that of the rest of it. -/
theorem witness_OneDigitAtATime :
    BlockInv holding ∧ ∃ t es, step holding = .next t ∧ t.trace = holding.trace ++ es :=
  ⟨by decide, _, _, rfl, rfl⟩

/-- The digit 1 on the tens position. -/
theorem witness_SegmentsLightFromPattern :
    holding.digitEn = (PerPosition.const true).set .tens false ∧ holding.q = rev8 0x60#8 ∧
      Position.ones ≠ Position.tens := by decide

/-- For the statements about the seven transitions and BothPressedCountWins. -/
theorem witness_IterationStarts :
    IterationStarts (sampling .idle false false) false false ∧ (sampling .idle false false).state = .idle ∧
      IterationStarts (sampling .idle true true) true true ∧ IterationStarts (sampling .idle true false) true false ∧
      IterationStarts (sampling .counting true false) true false ∧
      (sampling .counting true false).state = .counting ∧
      IterationStarts (sampling .resetting false true) false true ∧
      (sampling .resetting false true).state = .resetting := by decide

/-- Both sides of the threshold. -/
theorem witness_CountingHoldRepeats :
    (if (counting .counting 1 28).pd + 1 ≥ start.params.repeatThreshold then 2 else 1) = 1 ∧
      (if (counting .counting 1 29).pd + 1 ≥ start.params.repeatThreshold then 2 else 1) = 2 := by decide

theorem witness_ReservedStateRefused :
    IterationStarts (sampling .reserved true false) true false ∧ (sampling .reserved true false).state =
      .reserved := by decide

theorem witness_IgnoredSamples_IdleCount :
    ∃ t, exec (.iterIdleCount false) start = .next t := ⟨_, rfl⟩

theorem witness_IgnoredSamples_CountingRelease :
    ∃ t, exec (.iterCountingRelease false) start = .next t := ⟨_, rfl⟩

theorem witness_IgnoredSamples_CountingHold :
    ∃ t, exec (.iterCountingHold false) start = .next t := ⟨_, rfl⟩

theorem witness_IgnoredSamples_ResettingRelease :
    ∃ t, exec (.iterResettingRelease false) start = .next t := ⟨_, rfl⟩

theorem witness_IgnoredSamples_ResettingHold :
    ∃ t, exec (.iterResettingHold false) start = .next t := ⟨_, rfl⟩

/-- Operations of each group that complete, and one that takes a fault. -/
theorem witness_EachOperationWritesOnlyItsOwn :
    (∃ t, exec (.shiftoutLsb 0xFC#8) start = .next t) ∧ isShiftout (.shiftoutLsb 0xFC#8) = true ∧
    (∃ t, exec .encode9 start = .next t) ∧ isEncode .encode9 = true ∧ isIteration .encode9 = false ∧
    (∃ t, exec (.renderMsb 9019) start = .next t) ∧ isEncode (.renderMsb 9019) = false ∧
    (∃ t, exec (.encodeRangeA 10) start = .next t) :=
  ⟨⟨_, rfl⟩, rfl, ⟨_, rfl⟩, rfl, rfl, ⟨_, rfl⟩, rfl, ⟨_, rfl⟩⟩

/-- A press held through one further iteration, the reset button pressed meanwhile. -/
def press : State :=
  { start with stimulus := [⟨false, true⟩, ⟨true, true⟩] ++ ⟨true, false⟩ :: [⟨false, false⟩] }

theorem witness_HoldLaw :
    ThisHardware press.params ∧ press.fault = .none ∧ press.seq = .start ∧ press.calls = [] ∧ press.state = .idle ∧
      ([⟨false, true⟩, ⟨true, true⟩] : List Sample).length = 1 + 1 ∧
      (∀ x ∈ ([⟨false, true⟩, ⟨true, true⟩] : List Sample), x.cb = true) ∧
      (⟨true, false⟩ : Sample).cb = false := by decide

/-- The boundary, H = 29 against H = 30 (V53, V54). -/
theorem witness_LongerHoldCountsMore :
    ThisHardware start.params ∧ start.fault = .none ∧ start.seq = .start ∧ start.calls = [] ∧ start.state = .idle ∧
      29 < 30 ∧ 30 ≤ 30 ∧ 29 ≤ 29 ∧ 29 < 30 := by decide

/-- A reset press of two iterations, the count button pressed in the second. -/
def resetPress : State := { start with
      count := 27, stimulus := ⟨true, false⟩ :: ([⟨true, true⟩] ++ ⟨false, true⟩ :: []) }

theorem witness_ResetLaw :
    resetPress.fault = .none ∧ resetPress.seq = .start ∧ resetPress.calls = [] ∧ resetPress.state = .idle ∧
      (∀ x ∈ ([⟨true, true⟩] : List Sample), x.rb = true) ∧ (⟨false, true⟩ : Sample).rb = false ∧
      (1 : Nat) ≤ ([⟨true, true⟩] : List Sample).length := by decide

/-- For NoEdgeBetweenHeldStates, CountChangesOnlyByButtons, ConfigurationIsThisHardware, StepOnlyAppendsToTrace and
StepKeepsInvariant: a step from each of the three states. -/
theorem witness_StepFromEachState :
    (BlockInv (sampling .idle false true) ∧ ∃ t, step (sampling .idle false true) = .next t) ∧
    (BlockInv (sampling .counting true true) ∧ ∃ t, step (sampling .counting true true) = .next t) ∧
    (BlockInv (sampling .resetting true false) ∧ ∃ t, step (sampling .resetting true false) = .next t) :=
  ⟨⟨by decide, _, rfl⟩, ⟨by decide, _, rfl⟩, ⟨by decide, _, rfl⟩⟩

/-- A tick with no event, one with a write, one with a delay. -/
theorem witness_TickPerformsOneEvent :
    (∃ t, tick start = .next t) ∧ (∃ t, tick holding = .next t) ∧
    (∃ t, tick { holding with seq := .render .lsbFirst .tens (.frame (.clockHigh 0)) } = .next t) :=
  ⟨⟨_, rfl⟩, ⟨_, rfl⟩, ⟨_, rfl⟩⟩

/-- For TickKeepsInvariant, at the fall of the clock in a frame of the tens position. -/
theorem witness_TickKeepsInvariant :
    BlockInv { holding with
      digitEn := .const true, clock := true, seq := .render .lsbFirst .tens (.frame (.clockLow 7)) } ∧
    ∃ t, tick { holding with
      digitEn := .const true, clock := true, seq := .render .lsbFirst .tens (.frame (.clockLow 7)) } = .next t :=
  ⟨by decide, _, rfl⟩

theorem witness_InvariantLightsOneDigit :
    BlockInv holding ∧ holding.seq = .render .lsbFirst .tens .hold ∧ BlockInv start ∧ start.seq = .start := by decide

theorem witness_HaltIsForGood :
    ({ start with fault := .configError 2 } : State).fault ≠ .none ∧
      ({ start with fault := .digitRange 10 } : State).fault ≠ .none := by decide

/-- V61. -/
theorem witness_FirstFaultWins :
    start.fault = .none ∧ start.seq = .start ∧ 10 ≤ 12 ∧ 12 < 16 ∧
      ({ start with calls := [.encode 12, .shiftout 0x2FC] } : State).calls =
      .encode 12 :: .shiftout 0x2FC :: [] := by decide

theorem witness_LoopRunsForEver :
    BlockInv start ∧ start.fault = .none ∧ start.seq = .start ∧ start.calls = [] ∧
      FullSize start.params := by decide

/-- A step that completes, one that stops with the halt, one that is refused. -/
theorem witness_ExternalRegisterIsNotRead :
    (∃ t, step { start with calls := [.shiftout 0x0FC] } = .next t) ∧
    step { start with fault := .configError 2 } = .fault (.configErrorHalt 2) ∧
    step (sampling .reserved true true) = .refused (.reservedState true true) :=
  ⟨⟨_, rfl⟩, rfl, rfl⟩

/-- Inside an iteration, after the two samples: the transition and a hold; the reserved code; a halted block. -/
theorem witness_ButtonsUnreadAfterSampling :
    holding.seq ≠ .start ∧ holding.seq ≠ .sampleReset ∧ (∃ t, step holding = .next t) ∧
    (∃ t, step { counting .counting 1 29 with cb := true, seq := .transition } = .next t) ∧
    step { counting .reserved 1 29 with seq := .transition } = .refused (.reservedState false false) ∧
    step { holding with fault := .digitRange 10 } = .fault (.digitRangeHalt 10) :=
  ⟨by decide, by decide, ⟨_, rfl⟩, ⟨_, rfl⟩, rfl, rfl⟩

end Sys2Proof.Tests
end

section
/-! SUPPORT. Family 00_scope.md: the cases of a tick, the two grains, the configuration and its sizes. -/

namespace Sys2Proof.Machine

/-! ### The event grain makes the step (O50) -/

/-- The rest of an operation whose first part has answered `r`. -/
def finishAfter (r : Result) : Result :=
  match r with
  | .next t => finishOperation t
  | .fault e => .fault e
  | .refused e => .refused e

theorem operationByTicks_eq_finishAfter (s : State) : operationByTicks s = finishAfter (tick s) := rfl

/-- Inside an operation a tick and the rest are the rest: the fuel of `finishOperation` is not used up. -/
theorem operationByTicks_inside {s : State} (hs : s.seq ≠ .start) : operationByTicks s = finishOperation s := by
  have enough : settle (settleFuel + 1) s = settle settleFuel s :=
    settle_enough _ s (Nat.le_trans (ticksLeft_le s.seq) (by decide))
  rw [finishOperation, ← enough, settle, if_neg hs]
  rfl

theorem finishOperation_start {s : State} (hq : s.seq = .start) : finishOperation s = .next s :=
  settle_start _ hq

/-- `ENCODE` has no event and does not move the sequencer (R100). -/
@[simp] theorem encodeDigit_seq (d : Nat) (s : State) : (encodeDigit d s).seq = s.seq := by
  unfold encodeDigit
  split <;> rfl

/-- The `RENDER` of a transition that ends in `u`, begun and finished at event grain (R130). -/
theorem finish_beginCount {s : State} (u : State) (hf : s.fault = .none) (hu : u.fault = .none)
    (hq : u.seq = .start) : finishOperation (beginCount u) = whileRunning s (renderCount u) :=
  (finish_beginRender _ _ u hu hq).trans (whileRunning_running hf _).symm

/-- A row begun and finished at event grain is the row of the coarse grain, in a running block between operations. -/
theorem finishAfter_begin (i : Instr) {s : State} (hf : s.fault = .none) (hq : s.seq = .start) :
    finishAfter (begin i s) = exec i s := by
  cases i with
  | shiftoutMsb | shiftoutLsb | shiftoutBadorder =>
    exact (finish_beginShiftout _ _ s hf hq).trans (whileRunning_running hf _).symm
  | encode0 | encode1 | encode2 | encode3 | encode4 | encode5 | encode6 | encode7 | encode8 | encode9
  | encodeRangeA | encodeRangeB =>
    exact (finishOperation_start ((encodeDigit_seq _ s).trans hq)).trans (whileRunning_running hf _).symm
  | renderMsb | renderLsb | renderBadorder =>
    exact (finish_beginRender _ _ s hf hq).trans (whileRunning_running hf _).symm
  | iterIdleNone | iterIdleCount | iterIdleReset | iterCountingRelease | iterCountingHold | iterResettingRelease
  | iterResettingHold => exact finish_beginCount _ hf hf hq
  | iterBadstate => exact (unlessHalted_running hf _).symm

/-- A transition records the samples its word carries, so those in the registers before it do not matter (R130). -/
theorem exec_selectIteration_withSamples (st : FsmState) (rb cb rb' cb' : Level) (s : State) :
    exec (selectIteration st rb cb) (withSamples rb' cb' s) = exec (selectIteration st rb cb) s := by
  cases st <;> cases rb <;> cases cb <;> rfl

theorem tick_start {s : State} (hf : s.fault = .none) (hq : s.seq = .start) : tick s = tickStart s := by
  simp [tick, unlessHalted_running hf, hq]

/-- Without a directly driven operation the tick at the start takes the first sample (D4). -/
theorem tickStart_iteration {s : State} (hc : s.calls = []) :
    tickStart s = .next (withSeq .sampleReset (sampleCount (arrive s))) := by
  simp only [tickStart, hc]

/-- The tick at the start of a directly driven operation begins the row that its word decodes to. -/
theorem tickStart_call {s : State} {c : Call} {rest : List Call} (hc : s.calls = c :: rest) :
    tickStart s = onDecoded (decode s.params.codes c.raw) (fun i => begin i { s with calls := rest }) := by
  simp only [tickStart, hc]

theorem tick_sampleReset {s : State} (hf : s.fault = .none) (hq : s.seq = .sampleReset) :
    tick s = .next (withSeq .transition (sampleReset s)) := by
  simp [tick, unlessHalted_running hf, hq]

/-- The transition's tick begins the row that `STATE` and the two samples select (R69, R130). -/
theorem tick_transition {s : State} (hf : s.fault = .none) (hq : s.seq = .transition) :
    tick s = begin (selectIteration s.state s.rb s.cb) (withSeq .start s) := by
  simp [tick, unlessHalted_running hf, hq, tickTransition, decode_f4Bits, onDecoded]

/-- The state in which an iteration's transition is made: the arrived levels have been sampled (R18, R47). -/
theorem withSeq_start_sampled {u : State} (hq : u.seq = .start) :
    withSeq .start (withSeq .transition (sampleReset (withSeq .sampleReset (sampleCount u)))) =
      withSamples u.btnReset u.btnCount u :=
  withSeq_self (s := withSamples u.btnReset u.btnCount u) hq

/-- An iteration tick by tick: two samples, then the row that they select. -/
theorem operationByTicks_iteration {s : State} (hf : s.fault = .none) (hq : s.seq = .start) (hc : s.calls = []) :
    operationByTicks s = exec (selectIteration s.state (arrive s).btnReset (arrive s).btnCount) (arrive s) := by
  have hqu : (arrive s).seq = .start := by simpa using hq
  calc operationByTicks s
      = finishOperation (withSeq .sampleReset (sampleCount (arrive s))) := by
        rw [operationByTicks_eq_finishAfter, tick_start hf hq, tickStart_iteration hc]
        rfl
    _ = finishOperation (withSeq .transition (sampleReset (withSeq .sampleReset (sampleCount (arrive s))))) := by
        rw [← operationByTicks_inside (by simp), operationByTicks_eq_finishAfter,
          tick_sampleReset (by simpa using hf) rfl]
        rfl
    _ = finishAfter (begin (selectIteration s.state (arrive s).btnReset (arrive s).btnCount)
          (withSamples (arrive s).btnReset (arrive s).btnCount (arrive s))) := by
        rw [← operationByTicks_inside (by simp), operationByTicks_eq_finishAfter,
          tick_transition (by simpa using hf) rfl, withSeq_start_sampled hqu]
        simp
    _ = exec (selectIteration s.state (arrive s).btnReset (arrive s).btnCount) (arrive s) := by
        have hfu : (withSamples (arrive s).btnReset (arrive s).btnCount (arrive s)).fault = .none := by simpa using hf
        rw [finishAfter_begin _ hfu hqu, exec_selectIteration_withSamples]

/-- A directly driven operation tick by tick is the row its word decodes to. -/
theorem operationByTicks_call {s : State} {c : Call} {rest : List Call} (hf : s.fault = .none) (hq : s.seq = .start)
    (hc : s.calls = c :: rest) :
    operationByTicks s = onDecoded (decode s.params.codes c.raw) (fun i => exec i { s with calls := rest }) := by
  rw [operationByTicks_eq_finishAfter, tick_start hf hq, tickStart_call hc]
  cases decode s.params.codes c.raw with
  | ok i =>
    have hfc : ({ s with calls := rest } : State).fault = .none := hf
    exact finishAfter_begin i hfc hq
  | error e => rfl

/-- In a halted block both grains answer the halt (R163). -/
theorem operationByTicks_halted {s : State} (hf : s.fault ≠ .none) : operationByTicks s = step s := by
  cases h : s.fault with
  | none => exact absurd h hf
  | configError bo => simp [operationByTicks, tick, step, unlessHalted, h]
  | digitRange d => simp [operationByTicks, tick, step, unlessHalted, h]

/-- A step taken inside an operation finishes it (log entry 10). -/
theorem step_inside {s : State} (hf : s.fault = .none) (hs : s.seq ≠ .start) : step s = finishOperation s := by
  rw [step, unlessHalted_running hf]
  split
  next hq => exact absurd hq hs
  next => rfl

/-- Settles O50: halted, inside an operation, or at the start of a directly driven operation or of an iteration. -/
theorem ticksMakeTheStep : Obligations.TicksMakeTheStep := by
  intro s
  by_cases hf : s.fault = .none
  case neg => exact operationByTicks_halted hf
  by_cases hq : s.seq = .start
  case neg => rw [operationByTicks_inside hq, step_inside hf hq]
  cases hc : s.calls with
  | nil => rw [operationByTicks_iteration hf hq hc, step_iteration hf hq hc]
  | cons c rest => rw [operationByTicks_call hf hq hc, step_call hf hq hc]

/-! ### The cases of a tick (O44) -/

/-- What a tick of a running block can do. -/
inductive TickCase (s : State) : State → Prop
  /-- The event that `SEQ` says comes next. -/
  | event (e : Event) (he : eventNow s = some e) : TickCase s (withSeq (seqNext s.params s.seq) (applyEvent e s))
  /-- The first sample of an iteration. -/
  | countSample (hq : s.seq = .start) (hc : s.calls = []) :
    TickCase s (withSeq .sampleReset (sampleCount (arrive s)))
  /-- The second sample. -/
  | resetSample (hq : s.seq = .sampleReset) : TickCase s (withSeq .transition (sampleReset s))
  /-- A directly driven operation begins. -/
  | call (c : Call) (rest : List Call) (i : Instr) (t : State) (hq : s.seq = .start) (hc : s.calls = c :: rest)
    (hd : decode s.params.codes c.raw = .ok i) (hb : begin i { s with calls := rest } = .next t) : TickCase s t
  /-- The transition of an iteration. -/
  | transition (t : State) (hq : s.seq = .transition)
    (hb : begin (selectIteration s.state s.rb s.cb) (withSeq .start s) = .next t) : TickCase s t

/-- Inside a frame or a `RENDER` an event comes next. -/
theorem eventNow_isSome {s : State} (h1 : s.seq ≠ .start) (h2 : s.seq ≠ .sampleReset) (h3 : s.seq ≠ .transition) :
    ∃ e, eventNow s = some e := by
  unfold eventNow
  cases hq : s.seq with
  | start => exact absurd hq h1
  | sampleReset => exact absurd hq h2
  | transition => exact absurd hq h3
  | shift bo p f => exact ⟨_, rfl⟩
  | render bo i r => cases r <;> exact ⟨_, rfl⟩

theorem tickStart_cases {s t : State} (hq : s.seq = .start) (h : tickStart s = .next t) : TickCase s t := by
  cases hc : s.calls with
  | nil =>
    rw [tickStart_iteration hc] at h
    cases h
    exact .countSample hq hc
  | cons c rest =>
    rw [tickStart_call hc] at h
    cases hd : decode s.params.codes c.raw with
    | error e => rw [hd] at h; cases h
    | ok i => rw [hd] at h; exact .call c rest i t hq hc hd h

/-- A tick that answers a next state does so in a running block, in one of the cases. -/
theorem tick_cases {s t : State} (h : tick s = .next t) : s.fault = .none ∧ TickCase s t := by
  have hf : s.fault = .none := (unlessHalted_next h).1
  refine ⟨hf, ?_⟩
  by_cases h1 : s.seq = .start
  · exact tickStart_cases h1 (tick_start hf h1 ▸ h)
  by_cases h2 : s.seq = .sampleReset
  · rw [tick_sampleReset hf h2] at h
    cases h
    exact .resetSample h2
  by_cases h3 : s.seq = .transition
  · exact .transition t h3 (tick_transition hf h3 ▸ h)
  obtain ⟨e, he⟩ := eventNow_isSome h1 h2 h3
  rw [tick_event hf he] at h
  cases h
  exact .event e he

/-- A tick is its event, or it leaves every line, the external register and the trace alone. -/
theorem tick_event_or_sameWires {s t : State} (h : tick s = .next t) :
    (∃ e, t = withSeq (seqNext s.params s.seq) (applyEvent e s)) ∨ SameWires t s := by
  obtain ⟨-, hc⟩ := tick_cases h
  cases hc with
  | event e he => exact .inl ⟨e, rfl⟩
  | countSample => right; simp [SameWires]
  | resetSample => right; simp [SameWires]
  | call c rest i _ _ _ _ hb => have hw := begin_wires hb; exact .inr hw
  | transition _ _ hb => have hw := begin_wires hb; exact .inr hw

theorem levelOf_of_sameWires {s t : State} (h : SameWires t s) (l : OutLine) : levelOf t l = levelOf s l := by
  obtain ⟨-, hd, hc, hl, he, -, -⟩ := h
  cases l <;> simp [levelOf, hd, hc, hl, he]

/-- A line write puts its level on its line and leaves the other lines as they are (R47). -/
theorem levelOf_applyEvent_write (l l' : OutLine) (v : Level) (s : State) :
    levelOf (applyEvent (.write l v) s) l' = if l' = l then v else levelOf s l' := by
  cases l <;> cases l' <;> simp [applyEvent, writeLine, writeClock, writeLatch, record, levelOf, PerPosition_get_set]

/-- The shift stage shifts at a rise of the clock and at nothing else, taking the level of `DATA` (R24). -/
theorem applyEvent_write_sr (l : OutLine) (v : Level) (s : State) :
    (applyEvent (.write l v) s).sr =
      if l = .clock ∧ v = true ∧ s.clock = false then s.sr <<< 1 ||| (BitVec.ofBool s.data).setWidth 8
      else s.sr := by
  have h := congrArg Probe.sr (probeOf_applyEvent (.write l v) s)
  cases l <;> simpa [probeOf, Probe.follow, and_comm] using h

/-- The output stage copies at a rise of the latch and at nothing else (R24). -/
theorem applyEvent_write_q (l : OutLine) (v : Level) (s : State) :
    (applyEvent (.write l v) s).q = if l = .latch ∧ v = true ∧ s.latch = false then s.sr else s.q := by
  have h := congrArg Probe.q (probeOf_applyEvent (.write l v) s)
  cases l <;> simpa [probeOf, Probe.follow, and_comm] using h

theorem levelOf_withSeq (sq : Seq) (s : State) (l : OutLine) : levelOf (withSeq sq s) l = levelOf s l := by
  cases l <;> rfl

/-- Settles O44: a tick without an event leaves the wires alone, a tick with one is a delay or the write of a line. -/
theorem tickPerformsOneEvent : Obligations.TickPerformsOneEvent := by
  intro s t h
  rcases tick_event_or_sameWires h with ⟨e, rfl⟩ | hw
  · right
    refine ⟨by simp, ?_⟩
    cases e with
    | delay d => exact .inl ⟨d, by simp, levelOf_withSeq _ (record (.delay d) s), rfl, rfl⟩
    | write l v =>
      refine .inr ⟨l, v, by simp, ?_, fun l' hl' => ?_, applyEvent_write_sr l v s, applyEvent_write_q l v s⟩
      · rw [levelOf_withSeq, levelOf_applyEvent_write, if_pos rfl]
      · rw [levelOf_withSeq, levelOf_applyEvent_write, if_neg hl']
  · obtain ⟨htr, -, -, -, -, hsr, hq⟩ := id hw
    exact .inl ⟨htr, levelOf_of_sameWires hw, hsr, hq⟩

/-! ### The configuration (O56) -/

theorem beginShiftout_params (bo : Nat) (p : Pattern) (s : State) : (beginShiftout bo p s).params = s.params := by
  unfold beginShiftout
  split <;> rfl

theorem beginRender_params (bo n : Nat) (s : State) : (beginRender bo n s).params = s.params := by
  unfold beginRender
  split <;> rfl

/-- The part of an operation before its first event does not write the configuration (R21). -/
theorem begin_params {i : Instr} {s t : State} (h : begin i s = .next t) : t.params = s.params := by
  cases i with
  | shiftoutMsb | shiftoutLsb | shiftoutBadorder => cases h; exact beginShiftout_params _ _ s
  | encode0 | encode1 | encode2 | encode3 | encode4 | encode5 | encode6 | encode7 | encode8 | encode9
  | encodeRangeA | encodeRangeB => cases h; exact encodeDigit_params _ s
  | renderMsb | renderLsb | renderBadorder => cases h; exact beginRender_params _ _ s
  | iterIdleNone | iterIdleCount | iterIdleReset | iterCountingRelease | iterCountingHold | iterResettingRelease
  | iterResettingHold => cases h; exact beginRender_params _ _ _
  | iterBadstate => cases h

theorem tick_params {s t : State} (h : tick s = .next t) : t.params = s.params := by
  obtain ⟨-, hc⟩ := tick_cases h
  cases hc with
  | event e he => simp
  | countSample => simp
  | resetSample => simp
  | call c rest i _ _ _ _ hb => have hp := begin_params hb; exact hp
  | transition _ _ hb => have hp := begin_params hb; exact hp

theorem settle_params (k : Nat) {s t : State} (h : settle k s = .next t) : t.params = s.params := by
  induction k generalizing s with
  | zero => cases h; rfl
  | succ k ih =>
    rw [settle] at h
    split at h
    · cases h; rfl
    · cases ht : tick s with
      | next u => rw [ht] at h; exact (ih h).trans (tick_params ht)
      | fault r => rw [ht] at h; cases h
      | refused r => rw [ht] at h; cases h

/-- A step is its ticks, so it keeps what every tick keeps. -/
theorem step_params {s t : State} (h : step s = .next t) : t.params = s.params := by
  rw [← ticksMakeTheStep s, operationByTicks] at h
  cases ht : tick s with
  | next u => rw [ht] at h; exact (settle_params _ h).trans (tick_params ht)
  | fault r => rw [ht] at h; cases h
  | refused r => rw [ht] at h; cases h

/-- The effect of a row does not write the configuration (R21). -/
theorem effect_params (i : Instr) (s : State) : (effect i s).params = s.params := by
  cases i with
  | shiftoutMsb | shiftoutLsb | shiftoutBadorder => exact shiftout_params _ _ s
  | encode0 | encode1 | encode2 | encode3 | encode4 | encode5 | encode6 | encode7 | encode8 | encode9
  | encodeRangeA | encodeRangeB => exact encodeDigit_params _ s
  | renderMsb | renderLsb | renderBadorder => exact render_params _ _ s
  | iterIdleNone | iterIdleCount | iterIdleReset | iterCountingRelease | iterCountingHold | iterResettingRelease
  | iterResettingHold => exact render_params _ _ _
  | iterBadstate => rfl

theorem exec_params {i : Instr} {s t : State} (h : exec i s = .next t) : t.params = s.params := by
  obtain ⟨-, -, rfl⟩ := exec_next h
  exact effect_params i s

/-- Settles O56: the values at reset, and constancy under a step, a tick and an operation. -/
theorem configurationIsThisHardware : Obligations.ConfigurationIsThisHardware := by
  refine ⟨?_, rfl, fun _ _ => step_params, fun _ _ => tick_params, fun _ _ _ => exec_params⟩
  exact ⟨rfl, rfl, rfl, rfl, rfl, rfl, rfl, rfl, rfl⟩

/-! ### The sizes (O57) -/

/-- Writing 1 to some digit lines: those are 1, the others as before. -/
theorem get_foldl_set_true (todo : List Position) (d : PerPosition Level) (j : Position) :
    (todo.foldl (fun d i => d.set i true) d).get j = if j ∈ todo then true else d.get j := by
  induction todo generalizing d with
  | nil => rfl
  | cons i rest ih =>
    rw [List.foldl_cons, ih, PerPosition_get_set]
    by_cases hr : j ∈ rest <;> simp [hr]

/-- The digit lines beyond the configured positions are not those of one of these. -/
theorem not_mem_positionsOf {n : DigitCount} {i : Position} (h : i ∈ Position.all.drop n.toNat) :
    i ∉ positionsOf n := by
  have hnd : (Position.all.take n.toNat ++ Position.all.drop n.toNat).Nodup := by
    rw [List.take_append_drop]
    decide
  exact fun ht => (List.nodup_append.1 hnd).2.2 i ht i h rfl

theorem patternWidth_le (w : PatternWidth) : w.toNat ≤ 8 := w.pred.isLt

theorem sentBits_length (bo : BitOrder) (w : PatternWidth) (p : Pattern) : (sentBits bo w p).length = w.toNat := by
  have := patternWidth_le w
  cases bo
  · simp [sentBits, msbSequence]; omega
  · simp [sentBits, lsbSequence]; omega

/-- The eight levels of a pattern, most significant bit first. -/
theorem msbSequence_getElem? (p : Pattern) {k : Nat} (hk : k < 8) : (msbSequence p)[k]? = some (p.getLsbD (7 - k)) := by
  match k with
  | 0 | 1 | 2 | 3 | 4 | 5 | 6 | 7 => rfl
  | k + 8 => omega

/-- The eight levels of a pattern, least significant bit first. -/
theorem lsbSequence_getElem? (p : Pattern) {k : Nat} (hk : k < 8) : (lsbSequence p)[k]? = some (p.getLsbD k) := by
  match k with
  | 0 | 1 | 2 | 3 | 4 | 5 | 6 | 7 => rfl
  | k + 8 => omega

/-- The levels of a frame are the low bits of the pattern, the last of them first (log entry 3). -/
theorem sentBits_msb_getD (w : PatternWidth) (p : Pattern) {k : Nat} (hk : k < w.toNat) :
    (sentBits .msbFirst w p).getD k false = p.getLsbD (w.toNat - 1 - k) := by
  have := patternWidth_le w
  rw [List.getD_eq_getElem?_getD, sentBits, List.getElem?_drop, msbSequence_getElem? p (by omega),
    Option.getD_some, show 7 - (8 - w.toNat + k) = w.toNat - 1 - k by omega]

/-- The levels of a frame are the low bits of the pattern, in their order (log entry 3). -/
theorem sentBits_lsb_getD (w : PatternWidth) (p : Pattern) {k : Nat} (hk : k < w.toNat) :
    (sentBits .lsbFirst w p).getD k false = p.getLsbD k := by
  have := patternWidth_le w
  rw [List.getD_eq_getElem?_getD, sentBits, List.getElem?_take_of_lt hk, lsbSequence_getElem? p (by omega),
    Option.getD_some]

/-- `SHIFTOUT` of either order at any width: one frame, the digit lines as before, clock and latch low (R82). -/
theorem exec_shiftoutOf_lines (bo : BitOrder) (p : Pattern) {s : State} (hf : s.fault = .none)
    (hc : s.params.codes.distinct) :
    ∃ t, exec (shiftoutOf bo p) s = .next t ∧ t.fault = .none ∧ t.clock = false ∧ t.latch = false ∧
      t.digitEn = s.digitEn ∧ t.trace = s.trace ++ frameOf (sentBits bo s.params.patternWidth p) := by
  obtain ⟨hd, hck, hl⟩ := runEvents_frame_lines bo s.params.patternWidth p s
  refine ⟨_, exec_shiftoutOf bo p hf hc, by simpa using hf, hck, hl, hd, ?_⟩
  rw [runEvents_trace, frameOf_sentBits]

/-- `RENDER` of either order at any sizes: its events, the digit lines of its positions 1 and the others as before,
clock and latch low (R112). -/
theorem exec_renderOf_lines (bo : BitOrder) (n : Nat) {s : State} (hf : s.fault = .none)
    (hc : s.params.codes.distinct) :
    ∃ t, exec (renderOf bo n) s = .next t ∧ t.fault = .none ∧ t.clock = false ∧ t.latch = false ∧
      (∀ i ∈ Position.all.take s.params.numDigits.toNat, t.digitEn.get i = true) ∧
      (∀ i ∈ Position.all.drop s.params.numDigits.toNat, t.digitEn.get i = s.digitEn.get i) ∧
      t.trace = s.trace ++ renderTrace bo s.params n := by
  obtain ⟨hd, hck, hl⟩ :=
    runEvents_render_lines bo s.params (decimalDigits s.params.radix n) (decompose n s)
  refine ⟨_, exec_renderOf bo n hf hc, by simpa using hf, hck, hl, fun i hi => ?_, fun i hi => ?_, ?_⟩
  · rw [hd, get_foldl_set_true]
    exact if_pos hi
  · rw [hd, get_foldl_set_true, if_neg (not_mem_positionsOf hi), decompose_digitEn]
  · rw [runEvents_trace, renderTrace_eq, decompose_trace]

/-- With four positions of eight bits a `RENDER` is four whole frames, each with its enable, hold and disable (R112). -/
theorem renderTrace_full {ps : Params} (h : FullSize ps) (bo : BitOrder) (n : Nat) :
    renderTrace bo ps n =
      Position.all.flatMap (fun i =>
        frameOf (sentSequence bo (patternAt ps n i)) ++
          [.write (.digitEn i) false, .delay ps.tIllum, .write (.digitEn i) true]) := by
  obtain ⟨hn, hw⟩ := h
  simp only [renderTrace, hn, sentBits_full hw, positionEvents]
  rfl

/-- Settles O57: the frame and the `RENDER` of any configured size, the bits that are sent, and the full size. -/
theorem configuredSizes : Obligations.ConfiguredSizes := by
  intro bo p n s hc hf
  exact ⟨exec_shiftoutOf_lines bo p hf hc, exec_renderOf_lines bo n hf hc, sentBits_length bo _ p,
    fun k hk => ⟨sentBits_msb_getD _ p hk, sentBits_lsb_getD _ p hk⟩,
    fun hfull => ⟨sentBits_full hfull.2 bo p, renderTrace_full hfull bo n⟩⟩

end Sys2Proof.Machine
end

section
/-! SUPPORT. Family 10_state.md: what every tick and every step keeps, what an operation writes, and what the block does
not read. -/

namespace Sys2Proof.Machine

/-! ### What every tick keeps, every step keeps -/

/-- At most `k` further ticks, after a tick that has answered `r`. -/
def settleAfter (k : Nat) (r : Result) : Result :=
  match r with
  | .next t => settle k t
  | .fault e => .fault e
  | .refused e => .refused e

theorem settle_inside (k : Nat) {s : State} (hq : s.seq ≠ .start) : settle (k + 1) s = settleAfter k (tick s) := by
  rw [settle, if_neg hq]
  rfl

/-- A step is a tick and then the rest of its operation. -/
theorem step_eq_settleAfter (s : State) : step s = settleAfter settleFuel (tick s) :=
  (ticksMakeTheStep s).symm

theorem settleAfter_next {k : Nat} {r : Result} {t : State} (h : settleAfter k r = .next t) :
    ∃ u, r = .next u ∧ settle k u = .next t := by
  cases r with
  | next u => exact ⟨u, rfl, h⟩
  | fault e => cases h
  | refused e => cases h

theorem step_next {s t : State} (h : step s = .next t) : ∃ u, tick s = .next u ∧ settle settleFuel u = .next t :=
  settleAfter_next (step_eq_settleAfter s ▸ h)

/-- What the ticks inside an operation keep, the rest of the operation keeps. -/
theorem settle_keeps {P : State → Prop} (hP : ∀ u v, u.seq ≠ .start → P u → tick u = .next v → P v) (k : Nat)
    {s t : State} (hs : P s) (h : settle k s = .next t) : P t := by
  induction k generalizing s with
  | zero => cases h; exact hs
  | succ k ih =>
    by_cases hq : s.seq = .start
    · rw [settle_start _ hq] at h
      cases h
      exact hs
    · rw [settle_inside k hq] at h
      obtain ⟨u, ht, hr⟩ := settleAfter_next h
      exact ih (hP s u hq hs ht) hr

/-- What every tick keeps, every step keeps. -/
theorem step_keeps {P : State → Prop} (hP : ∀ u v, P u → tick u = .next v → P v) {s t : State} (hs : P s)
    (h : step s = .next t) : P t := by
  obtain ⟨u, ht, hr⟩ := step_next h
  exact settle_keeps (fun u v _ => hP u v) settleFuel (hP s u hs ht) hr

/-! ### The parts of the invariant (O41, O43, O42) -/

/-- `STATE` is a named one, and `COUNT` is 0 while it is `RESETTING` (R143, R146). -/
abbrev CountInv (s : State) : Prop := s.state ≠ .reserved ∧ (s.state = .resetting → s.count = 0)

/-- The digit lines, the clock and the latch are where a position of the sequencer has them (R86, R117). -/
abbrev WiresAt (sq : Seq) (s : State) : Prop :=
  s.digitEn = digitEnAt sq ∧ s.clock = clockAt sq ∧ s.latch = latchAt sq

theorem blockInv_of_parts {s : State} (hc : CountInv s) (hw : WiresAt s.seq s) : BlockInv s := ⟨hc.1, hc.2, hw⟩

theorem blockInv_parts {s : State} (h : BlockInv s) : CountInv s ∧ WiresAt s.seq s := ⟨⟨h.1, h.2.1⟩, h.2.2⟩

/-- Settles O41: the registers and the lines after reset. -/
theorem invariantAtReset : Obligations.InvariantAtReset :=
  blockInv_of_parts ⟨fun h => (nomatch h), fun h => (nomatch h)⟩ ⟨rfl, rfl, rfl⟩

/-- The lines of a step of a frame are the same in a `SHIFTOUT` and in a `RENDER` (R114). -/
theorem wiresAt_frame_iff (bo bo' : BitOrder) (p : Pattern) (i : Position) (f : FrameStep) (s : State) :
    WiresAt (.render bo i (.frame f)) s ↔ WiresAt (.shift bo' p f) s := by
  cases f <;> exact Iff.rfl

/-- The event of a step of a frame brings the lines to where the next step has them (R68, R86). -/
theorem wiresAt_frameEvent {bo : BitOrder} {w : PatternWidth} {p : Pattern} {f f' : FrameStep} {s : State}
    (hn : frameNext w f = some f') (h : WiresAt (.shift bo p f) s) :
    WiresAt (.shift bo p f') (applyEvent (frameEvent bo w p f) s) := by
  obtain ⟨hd, hc, hl⟩ := h
  cases f with
  | data j => cases hn; exact ⟨hd, hc, hl⟩
  | clockHigh j => cases hn; exact ⟨hd, rfl, hl⟩
  | clockLow j =>
    rw [frameNext] at hn
    split at hn <;> cases hn <;> exact ⟨hd, rfl, hl⟩
  | latchHigh => cases hn; exact ⟨hd, hc, rfl⟩
  | latchLow => cases hn

/-- After the last event of a frame the lines are those between operations (R86). -/
theorem wiresAt_frameEnd {bo : BitOrder} {w : PatternWidth} {p : Pattern} {f : FrameStep} {s : State}
    (hn : frameNext w f = none) (h : WiresAt (.shift bo p f) s) :
    WiresAt .start (applyEvent (frameEvent bo w p f) s) := by
  obtain ⟨hd, hc, hl⟩ := h
  cases f with
  | data j => cases hn
  | clockHigh j => cases hn
  | clockLow j =>
    rw [frameNext] at hn
    split at hn <;> cases hn
  | latchHigh => cases hn
  | latchLow => exact ⟨hd, hc, rfl⟩

theorem wiresAt_shiftEvent (ps : Params) {bo : BitOrder} {p : Pattern} {f : FrameStep} {s : State}
    (h : WiresAt (.shift bo p f) s) :
    WiresAt (seqNext ps (.shift bo p f)) (applyEvent (frameEvent bo ps.patternWidth p f) s) := by
  cases hn : frameNext ps.patternWidth f with
  | some f' => simp only [seqNext, hn]; exact wiresAt_frameEvent hn h
  | none => simp only [seqNext, hn]; exact wiresAt_frameEnd hn h

theorem wiresAt_renderFrameEvent (ps : Params) {bo : BitOrder} {i : Position} (p : Pattern) {f : FrameStep} {s : State}
    (h : WiresAt (.render bo i (.frame f)) s) :
    WiresAt (seqNext ps (.render bo i (.frame f))) (applyEvent (frameEvent bo ps.patternWidth p f) s) := by
  have hs := (wiresAt_frame_iff bo bo p i f s).1 h
  cases hn : frameNext ps.patternWidth f with
  | some f' => simp only [seqNext, hn]; exact (wiresAt_frame_iff bo bo p i f' _).2 (wiresAt_frameEvent hn hs)
  | none =>
    have he := wiresAt_frameEnd hn hs
    simp only [seqNext, hn]
    exact he

/-- One position on, then off: every digit is off again (R117). -/
theorem set_false_set_true (i : Position) :
    ((PerPosition.const true).set i false).set i true = PerPosition.const true := by
  cases i <;> rfl

/-- After the last event of a position the lines are those between operations, and those of the next position's first
step (R117). -/
theorem wiresAt_seqNext_disable (ps : Params) (bo : BitOrder) (i : Position) {s : State} (h : WiresAt .start s) :
    WiresAt (seqNext ps (.render bo i .disable)) s := by
  cases hn : positionNext ps.numDigits i <;> simp only [seqNext, hn] <;> exact h

/-- The event that comes next brings the lines to where the next position of the sequencer has them. -/
theorem wiresAt_event {s : State} {e : Event} (he : eventNow s = some e) (h : WiresAt s.seq s) :
    WiresAt (seqNext s.params s.seq) (applyEvent e s) := by
  unfold eventNow at he
  generalize s.seq = sq at he h
  cases sq with
  | start | sampleReset | transition => cases he
  | shift bo p f => cases he; exact wiresAt_shiftEvent s.params h
  | render bo i r =>
    cases r with
    | frame f => cases he; exact wiresAt_renderFrameEvent s.params _ h
    | enable =>
      cases he
      obtain ⟨hd, hc, hl⟩ := h
      exact ⟨congrArg (·.set i false) hd, hc, hl⟩
    | hold => cases he; exact h
    | disable =>
      cases he
      obtain ⟨hd, hc, hl⟩ := h
      exact wiresAt_seqNext_disable _ _ _ ⟨(congrArg (·.set i true) hd).trans (set_false_set_true i), hc, hl⟩

/-- Lines that have not changed are where they were. -/
theorem wiresAt_of_sameWires {s t : State} {sq : Seq} (h : SameWires t s) (hs : WiresAt sq s) : WiresAt sq t := by
  obtain ⟨-, -, hc, hl, hd, -, -⟩ := h
  obtain ⟨hsd, hsc, hsl⟩ := hs
  exact ⟨hd.trans hsd, hc.trans hsc, hl.trans hsl⟩

/-! ### The start of an operation -/

/-- Where the sequencer stands once a directly driven operation has begun: before the first event of a frame, or at the
start again if the operation has no event (`ENCODE`, or a fault). -/
def Begun : Seq → Prop
  | .start => True
  | .shift _ _ f => f = frameStart
  | .render _ _ (.frame f) => f = frameStart
  | _ => False

/-- The lines before the first event of an operation are those between operations. -/
theorem wiresAt_begun {sq : Seq} {s : State} (hb : Begun sq) (h : WiresAt .start s) : WiresAt sq s := by
  cases sq with
  | start => exact h
  | sampleReset => cases hb
  | transition => cases hb
  | shift bo p f => cases hb; exact h
  | render bo i r =>
    cases r with
    | frame f => cases hb; exact h
    | enable => cases hb
    | hold => cases hb
    | disable => cases hb

/-- A directly driven word is never one of the block's own: its row is none of `ITERATE`'s (R60, R69, R72). -/
theorem decode_call_not_iteration {c : OrderCodes} {k : Call} {i : Instr} (h : decode c k.raw = .ok i) :
    isIteration i = false := by
  unfold decode at h
  split at h
  case isFalse => cases h
  cases k with
  | shiftout w =>
    cases h
    unfold decodeS10
    split
    · rfl
    · split <;> rfl
  | encode w =>
    cases h
    unfold decodeE4
    split
    case h_11 => split <;> rfl
    all_goals rfl
  | render w n =>
    cases h
    unfold decodeR2
    split
    · rfl
    · split <;> rfl

/-- Two states have the same application registers and the same samples (R11, R12, R13, R18). -/
abbrev SameRegisters (t s : State) : Prop :=
  t.count = s.count ∧ t.pd = s.pd ∧ t.state = s.state ∧ t.cb = s.cb ∧ t.rb = s.rb

theorem beginShiftout_registers (bo : Nat) (p : Pattern) (s : State) : SameRegisters (beginShiftout bo p s) s := by
  unfold beginShiftout
  split <;> simp [SameRegisters]

theorem beginRender_registers (bo n : Nat) (s : State) : SameRegisters (beginRender bo n s) s := by
  unfold beginRender
  split <;> simp [SameRegisters]

theorem encodeDigit_registers (d : Nat) (s : State) : SameRegisters (encodeDigit d s) s := by
  unfold encodeDigit
  split <;> simp [SameRegisters]

theorem beginShiftout_begun (bo : Nat) (p : Pattern) {s : State} (hq : s.seq = .start) :
    Begun (beginShiftout bo p s).seq := by
  unfold beginShiftout
  split
  · rw [raise_seq, hq]; trivial
  · rfl

theorem beginRender_begun (bo n : Nat) {s : State} (hq : s.seq = .start) : Begun (beginRender bo n s).seq := by
  unfold beginRender
  split
  · rw [raise_seq, decompose_seq, hq]; trivial
  · rfl

theorem encodeDigit_begun (d : Nat) {s : State} (hq : s.seq = .start) : Begun (encodeDigit d s).seq := by
  rw [encodeDigit_seq, hq]
  trivial

/-- A directly driven operation begins without touching the registers of the counter (R60). -/
theorem begin_driven {i : Instr} {s t : State} (hi : isIteration i = false) (hq : s.seq = .start)
    (h : begin i s = .next t) : SameRegisters t s ∧ Begun t.seq := by
  cases i with
  | shiftoutMsb | shiftoutLsb | shiftoutBadorder =>
    cases h; exact ⟨beginShiftout_registers _ _ s, beginShiftout_begun _ _ hq⟩
  | encode0 | encode1 | encode2 | encode3 | encode4 | encode5 | encode6 | encode7 | encode8 | encode9
  | encodeRangeA | encodeRangeB => cases h; exact ⟨encodeDigit_registers _ s, encodeDigit_begun _ hq⟩
  | renderMsb | renderLsb | renderBadorder =>
    cases h; exact ⟨beginRender_registers _ _ s, beginRender_begun _ _ hq⟩
  | iterIdleNone | iterIdleCount | iterIdleReset | iterCountingRelease | iterCountingHold | iterResettingRelease
  | iterResettingHold | iterBadstate => cases hi

/-! ### The transition of an iteration -/

/-- What an iteration can do to the count (R131 to R138, R143): leave it, add one with the count button pressed, or
zero it with the reset button pressed; with `STATE` after it. -/
def CountChange (s t : State) : Prop :=
  (t.count = s.count ∧ (t.state = .idle ∨ t.state = .counting)) ∨
  (t.count = s.count + 1 ∧ t.cb = true ∧ t.state = .counting) ∨
  (t.count = 0 ∧ t.rb = true ∧ t.state = .resetting)

/-- While the count button is held the count grows or not, and `STATE` is not written (R136). -/
theorem onCountingHold_countChange (rb : Level) {s : State} (h : s.state = .counting) :
    CountChange s (onCountingHold rb s) := by
  by_cases hd : repeatDue s.params (s.pd + 1) = true
  · exact .inr (.inl ⟨if_pos hd, rfl, h⟩)
  · exact .inl ⟨if_neg hd, .inr h⟩

/-- Each of the seven transitions changes the count in one of the ways of the spec. -/
theorem transitionOf_countChange {st : FsmState} (rb cb : Level) {s : State} (h : s.state = st)
    (hr : st ≠ .reserved) : CountChange s (transitionOf st rb cb s) := by
  cases st with
  | idle =>
    cases cb with
    | true => cases rb <;> exact .inr (.inl ⟨rfl, rfl, rfl⟩)
    | false =>
      cases rb with
      | true => exact .inr (.inr ⟨rfl, rfl, rfl⟩)
      | false => exact .inl ⟨rfl, .inl h⟩
  | counting =>
    cases cb with
    | true => cases rb <;> exact onCountingHold_countChange _ h
    | false => cases rb <;> exact .inl ⟨rfl, .inl rfl⟩
  | resetting =>
    cases rb with
    | true => cases cb <;> exact .inr (.inr ⟨rfl, rfl, h⟩)
    | false => cases cb <;> exact .inl ⟨rfl, .inl rfl⟩
  | reserved => exact absurd rfl hr

/-- The transition's tick: one of the ways of the count, and the first frame comes next (R130). -/
theorem begin_transition {s t : State} (h : begin (selectIteration s.state s.rb s.cb) (withSeq .start s) = .next t) :
    CountChange s t ∧ t.seq = .render (displayOrder s.params) .ones (.frame frameStart) := by
  obtain ⟨hr, rfl⟩ := begin_iteration_next _ _ _ _ _ h
  have hc : CountChange s (transitionOf s.state s.rb s.cb (withSeq .start s)) :=
    transitionOf_countChange (s := withSeq .start s) s.rb s.cb rfl hr
  exact ⟨hc, rfl⟩

/-! ### The invariant, tick by tick (O43) and step by step (O42) -/

theorem countInv_of_countChange {s t : State} (h : CountChange s t) : CountInv t := by
  rcases h with ⟨-, hst | hst⟩ | ⟨-, -, hst⟩ | ⟨hc, -, hst⟩
  · simp [CountInv, hst]
  · simp [CountInv, hst]
  · simp [CountInv, hst]
  · simp [CountInv, hst, hc]

theorem countInv_of_sameRegisters {s t : State} (h : SameRegisters t s) (hs : CountInv s) : CountInv t := by
  obtain ⟨hc, -, hst, -, -⟩ := h
  rwa [CountInv, hc, hst]

/-- Settles O43: an event moves the lines with the sequencer, a sample writes neither, an operation begins with its
registers written and the lines at rest. -/
theorem tickKeepsInvariant : Obligations.TickKeepsInvariant := by
  intro s t hs h
  obtain ⟨hcount, hwires⟩ := blockInv_parts hs
  obtain ⟨-, hc⟩ := tick_cases h
  cases hc with
  | event e he => exact blockInv_of_parts (by simpa [CountInv] using hcount) (wiresAt_event he hwires)
  | countSample hq hc =>
    rw [hq] at hwires
    exact blockInv_of_parts (by simpa [CountInv] using hcount) (wiresAt_of_sameWires (by simp [SameWires]) hwires)
  | resetSample hq =>
    rw [hq] at hwires
    exact blockInv_of_parts hcount hwires
  | call c rest i _ hq _ hd hb =>
    rw [hq] at hwires
    obtain ⟨hregs, hbegun⟩ := begin_driven (s := { s with calls := rest }) (decode_call_not_iteration hd) hq hb
    exact blockInv_of_parts (countInv_of_sameRegisters hregs hcount)
      (wiresAt_begun hbegun (wiresAt_of_sameWires (begin_wires hb) hwires))
  | transition _ hq hb =>
    rw [hq] at hwires
    obtain ⟨hchange, hseq⟩ := begin_transition hb
    refine blockInv_of_parts (countInv_of_countChange hchange) ?_
    rw [hseq]
    exact wiresAt_of_sameWires (begin_wires hb) hwires

/-- Settles O42: a step is its ticks, and each of them keeps the invariant. -/
theorem stepKeepsInvariant : Obligations.StepKeepsInvariant :=
  fun _ _ hs h => step_keeps tickKeepsInvariant hs h

/-! ### What the invariant says of the display (O45) and of the trace (O20) -/

theorem digitsOn_one (i : Position) : digitsOn ((PerPosition.const true).set i false) = 1 := by
  cases i <;> rfl

/-- At no position of the sequencer is more than one digit on (R117). -/
theorem digitsOn_digitEnAt (sq : Seq) : digitsOn (digitEnAt sq) ≤ 1 := by
  cases sq with
  | start | sampleReset | transition | shift => exact Nat.zero_le 1
  | render bo i r =>
    cases r with
    | frame | enable => exact Nat.zero_le 1
    | hold | disable => exact Nat.le_of_eq (digitsOn_one i)

theorem digitsOn_of_blockInv {s : State} (h : BlockInv s) : digitsOn s.digitEn ≤ 1 := by
  obtain ⟨-, hd, -, -⟩ := blockInv_parts h
  rw [hd]
  exact digitsOn_digitEnAt s.seq

theorem visible_off {s : State} {i : Position} (h : s.digitEn.get i = true) : visible s i = none := if_pos h

theorem visible_on {s : State} {i : Position} (h : s.digitEn.get i = false) : visible s i = some s.q := by
  simp [visible, h]

theorem const_get (v : Level) (i : Position) : (PerPosition.const v).get i = v := by
  cases i <;> rfl

/-- With one digit line at 0 that position shows the register's outputs, and no other shows anything (R25). -/
theorem visible_one {s : State} {i : Position} (h : s.digitEn = (PerPosition.const true).set i false) :
    visible s i = some s.q ∧ ∀ j, j ≠ i → visible s j = none := by
  refine ⟨visible_on ?_, fun j hj => visible_off ?_⟩
  · rw [h, PerPosition_get_set, if_pos rfl]
  · rw [h, PerPosition_get_set, if_neg hj, const_get]

/-- Settles O45: the digit lines at each position of the sequencer. -/
theorem invariantLightsOneDigit : Obligations.InvariantLightsOneDigit := by
  intro s h
  obtain ⟨-, hd, -, -⟩ := blockInv_parts h
  refine ⟨digitsOn_of_blockInv h, fun hq j => visible_off ?_, fun bo i hq => visible_one ?_⟩
  · rw [hd, hq]
    exact const_get true j
  · rw [hd, hq]
    rfl

/-- From `s` to `t` the trace has grown by events that lead from the digit lines of `s` to those of `t`, with at most one
digit on after each of them. -/
def OneDigitSince (s t : State) : Prop :=
  ∃ es, t.trace = s.trace ++ es ∧ t.digitEn = replayDigits s.digitEn es ∧
    ∀ k, digitsOn (replayDigits s.digitEn (es.take k)) ≤ 1

theorem oneDigitSince_refl {s : State} (h : BlockInv s) : OneDigitSince s s :=
  ⟨[], by simp, rfl, fun k => by rw [List.take_nil]; exact digitsOn_of_blockInv h⟩

/-- One more tick, into a state of the invariant. -/
theorem oneDigitSince_tick {s u v : State} (h : OneDigitSince s u) (hv : BlockInv v) (ht : tick u = .next v) :
    OneDigitSince s v := by
  obtain ⟨es, htr, hd, hone⟩ := h
  rcases tick_event_or_sameWires ht with ⟨e, rfl⟩ | ⟨htv, -, -, -, hdv, -, -⟩
  · have hlast := digitsOn_of_blockInv hv
    rw [withSeq_digitEn] at hlast
    have hend : (applyEvent e u).digitEn = replayDigits s.digitEn (es ++ [e]) := by
      rw [replayDigits_append, ← hd]
      exact runEvents_digitEn [e] u
    refine ⟨es ++ [e], by simp [htr], hend, fun k => ?_⟩
    by_cases hk : k ≤ es.length
    · rw [List.take_append_of_le_length hk]
      exact hone k
    · rw [List.take_of_length_le (by simp; omega), ← hend]
      exact hlast
  · exact ⟨es, htv.trans htr, hdv.trans hd, hone⟩

/-- Settles O20: every tick of a step ends in a state of the invariant, and adds at most one event. -/
theorem oneDigitAtATime : Obligations.OneDigitAtATime := by
  intro s t es hs h htr k
  have keeps : ∀ u v, BlockInv u ∧ OneDigitSince s u → tick u = .next v → BlockInv v ∧ OneDigitSince s v :=
    fun u v hu ht =>
      have hv := tickKeepsInvariant u v hu.1 ht
      ⟨hv, oneDigitSince_tick hu.2 hv ht⟩
  obtain ⟨-, es', htr', -, hone⟩ := step_keeps keeps ⟨hs, oneDigitSince_refl hs⟩ h
  have : es = es' := List.append_cancel_left (htr.symm.trans htr')
  rw [this]
  exact hone k

/-! ### The trace and the end of a step (O46) -/

theorem tick_trace {s t : State} (h : tick s = .next t) : ∃ es, t.trace = s.trace ++ es := by
  rcases tick_event_or_sameWires h with ⟨e, rfl⟩ | ⟨htr, -⟩
  · exact ⟨[e], by simp⟩
  · exact ⟨[], by simp [htr]⟩

theorem step_trace {s t : State} (h : step s = .next t) : ∃ es, t.trace = s.trace ++ es := by
  have keeps : ∀ u v, (∃ es, u.trace = s.trace ++ es) → tick u = .next v → ∃ es, v.trace = s.trace ++ es := by
    rintro u v ⟨es, hes⟩ ht
    obtain ⟨es', hes'⟩ := tick_trace ht
    exact ⟨es ++ es', by rw [hes', hes, List.append_assoc]⟩
  exact step_keeps keeps ⟨[], by simp⟩ h

/-- A step ends its operation: the fuel is enough from every position of the sequencer (log entry 10). -/
theorem step_ends {s t : State} (h : step s = .next t) : t.seq = .start := by
  obtain ⟨u, -, hr⟩ := step_next h
  exact settle_ends settleFuel u t (Nat.le_trans (ticksLeft_le u.seq) (by decide)) hr

/-- Settles O46: a step is its ticks, each of which adds to the trace only, and they reach the operation's end. -/
theorem stepOnlyAppendsToTrace : Obligations.StepOnlyAppendsToTrace :=
  fun _ _ h => ⟨step_ends h, step_params h, step_trace h⟩

/-! ### How the count changes (O39) -/

/-- The sequencer is past the transition of an iteration. -/
abbrev PastTransition (sq : Seq) : Prop := sq ≠ .sampleReset ∧ sq ≠ .transition

/-- From every position but the one between the two samples the next is past the transition, or is none. -/
theorem pastTransition_seqNext (ps : Params) {sq : Seq} (h : sq ≠ .sampleReset) : PastTransition (seqNext ps sq) := by
  cases sq with
  | sampleReset => exact absurd rfl h
  | start | transition => simp [PastTransition, seqNext]
  | shift bo p f => cases hn : frameNext ps.patternWidth f <;> simp [PastTransition, seqNext, hn]
  | render bo i r =>
    cases r with
    | frame f => cases hn : frameNext ps.patternWidth f <;> simp [PastTransition, seqNext, hn]
    | enable | hold => simp [PastTransition, seqNext]
    | disable => cases hn : positionNext ps.numDigits i <;> simp [PastTransition, seqNext, hn]

theorem eventNow_not_sampleReset {s : State} {e : Event} (he : eventNow s = some e) : s.seq ≠ .sampleReset := by
  intro h
  simp [eventNow, h] at he

/-- Since `s` the count is as it was, or an iteration has changed it and its transition is past. -/
def CountSince (s t : State) : Prop := t.count = s.count ∨ (CountChange s t ∧ PastTransition t.seq)

theorem countChange_congr {r s t : State} (h : CountChange s t) (hc : s.count = r.count) : CountChange r t := by
  rwa [CountChange, hc] at h

theorem countChange_of_sameRegisters {s t u : State} (h : CountChange s t) (hu : SameRegisters u t) :
    CountChange s u := by
  obtain ⟨hc, -, hst, hcb, hrb⟩ := hu
  rwa [CountChange, hc, hst, hcb, hrb]

theorem applyEvent_registers (e : Event) (s : State) : SameRegisters (applyEvent e s) s := by
  simp [SameRegisters]

/-- A tick inside an operation: only the one before the transition can make it. -/
theorem countSince_tick {s u v : State} (hq : u.seq ≠ .start) (h : CountSince s u) (ht : tick u = .next v) :
    CountSince s v := by
  obtain ⟨-, hc⟩ := tick_cases ht
  cases hc with
  | event e he =>
    rcases h with h | ⟨h, -⟩
    · exact .inl (by simpa using h)
    · exact .inr ⟨countChange_of_sameRegisters h (applyEvent_registers e u),
        pastTransition_seqNext _ (eventNow_not_sampleReset he)⟩
  | countSample hs => exact absurd hs hq
  | resetSample hs =>
    rcases h with h | ⟨-, hpast, -⟩
    · exact .inl h
    · exact absurd hs hpast
  | call _ _ _ _ hs => exact absurd hs hq
  | transition _ hs hb =>
    rcases h with h | ⟨-, -, hpast⟩
    · obtain ⟨hchange, hseq⟩ := begin_transition hb
      exact .inr ⟨countChange_congr hchange h, by simp [PastTransition, hseq]⟩
    · exact absurd hs hpast

/-- The first tick of a step, at the start of an operation or inside it. -/
theorem countSince_firstTick {s t : State} (ht : tick s = .next t) : CountSince s t := by
  by_cases hq : s.seq = .start
  case neg => exact countSince_tick hq (.inl rfl) ht
  obtain ⟨-, hc⟩ := tick_cases ht
  cases hc with
  | event e => exact .inl (by simp)
  | countSample => exact .inl (by simp)
  | resetSample => exact .inl rfl
  | call c rest i _ _ _ hd hb =>
    obtain ⟨⟨hcount, -⟩, -⟩ := begin_driven (s := { s with calls := rest }) (decode_call_not_iteration hd) hq hb
    exact .inl hcount
  | transition _ hs => rw [hq] at hs; cases hs

theorem step_countSince {s t : State} (h : step s = .next t) : CountSince s t := by
  obtain ⟨u, ht, hr⟩ := step_next h
  exact settle_keeps (P := CountSince s) (fun _ _ => countSince_tick) settleFuel (countSince_firstTick ht) hr

/-- Settles O39: only an iteration's transition writes the count, and a step has at most one. -/
theorem countChangesOnlyByButtons : Obligations.CountChangesOnlyByButtons := by
  intro s t h
  rcases step_countSince h with hc | ⟨⟨hc, -⟩ | hadd | hzero, -⟩
  · exact .inl hc
  · exact .inl hc
  · exact .inr (.inl hadd)
  · exact .inr (.inr hzero)

/-! ### The halt (O47) -/

/-- The cause and the operand of the halt that a fault register stands for (R163, R165). -/
inductive HaltOf : FaultReg → Fault → Prop
  | configError (bo : Nat) : HaltOf (.configError bo) (.configErrorHalt bo)
  | digitRange (d : Nat) : HaltOf (.digitRange d) (.digitRangeHalt d)

theorem haltOf_exists {f : FaultReg} (h : f ≠ .none) : ∃ e, HaltOf f e := by
  cases f with
  | none => exact absurd rfl h
  | configError bo => exact ⟨_, .configError bo⟩
  | digitRange d => exact ⟨_, .digitRange d⟩

theorem unlessHalted_halted {s : State} {e : Fault} (h : HaltOf s.fault e) (r : Result) :
    unlessHalted s r = .fault e := by
  unfold unlessHalted
  generalize s.fault = f at h
  cases h <;> rfl

theorem tick_halted {s : State} {e : Fault} (h : HaltOf s.fault e) : tick s = .fault e := unlessHalted_halted h _

theorem step_halted {s : State} {e : Fault} (h : HaltOf s.fault e) : step s = .fault e := unlessHalted_halted h _

theorem exec_halted {s : State} {e : Fault} (h : HaltOf s.fault e) (i : Instr) : exec i s = .fault e := by
  generalize hf : s.fault = f at h
  cases h with
  | configError bo => exact exec_configHalt i hf
  | digitRange d => exact exec_rangeHalt i hf

/-- Settles O47: the step, the tick and every row ask first whether the block is halted. -/
theorem haltIsForGood : Obligations.HaltIsForGood := by
  intro s hs
  obtain ⟨e, he⟩ := haltOf_exists hs
  refine ⟨e, step_halted he, tick_halted he, exec_halted he, ?_⟩
  generalize s.fault = f at he
  cases he with
  | configError bo => exact .inl ⟨bo, rfl, rfl⟩
  | digitRange d => exact .inr ⟨d, rfl, rfl⟩

/-! ### What the block does not read (O51, O52) -/

/-- Two answers are alike: next states in a relation, or the same stop. -/
inductive Alike (R : State → State → Prop) : Result → Result → Prop
  | next {s t : State} (h : R s t) : Alike R (.next s) (.next t)
  | fault (r : Fault) : Alike R (.fault r) (.fault r)
  | refused (r : Refusal) : Alike R (.refused r) (.refused r)

section
variable {R : State → State → Prop}

theorem alike_next {r : Result} {s : State} (h : Alike R (.next s) r) : ∃ t, r = .next t ∧ R s t := by
  cases h with
  | next h => exact ⟨_, rfl, h⟩

theorem alike_fault {r : Result} {e : Fault} (h : Alike R (.fault e) r) : r = .fault e := by
  cases h
  rfl

theorem alike_refused {r : Result} {e : Refusal} (h : Alike R (.refused e) r) : r = .refused e := by
  cases h
  rfl

theorem alike_onDecoded {r : Except DecodeReject Instr} {k k' : Instr → Result} (h : ∀ i, Alike R (k i) (k' i)) :
    Alike R (onDecoded r k) (onDecoded r k') := by
  cases r with
  | ok i => exact h i
  | error e => exact .refused _

/-- Answers that are alike stay alike in any relation that their next states are in too. -/
theorem alike_of_next {R' : State → State → Prop} {r r' : Result} (h : Alike R r r')
    (hR : ∀ s t, r = .next s → R s t → R' s t) : Alike R' r r' := by
  cases h with
  | next h => exact .next (hR _ _ rfl h)
  | fault e => exact .fault e
  | refused e => exact .refused e

theorem alike_settleAfter {k : Nat} (hk : ∀ s t, R s t → Alike R (settle k s) (settle k t)) {r r' : Result}
    (h : Alike R r r') : Alike R (settleAfter k r) (settleAfter k r') := by
  cases h with
  | next h => exact hk _ _ h
  | fault e => exact .fault e
  | refused e => exact .refused e

/-- Two blocks halted by the same fault answer alike (R163). -/
theorem alike_tick_halted {s t : State} (ht : t.fault = s.fault) (hf : s.fault ≠ .none) :
    Alike R (tick s) (tick t) := by
  obtain ⟨e, he⟩ := haltOf_exists hf
  rw [tick_halted he, tick_halted (ht ▸ he)]
  exact .fault e

/-- If the ticks inside an operation answer alike, so does the rest of the operation. -/
theorem alike_settle (hseq : ∀ s t, R s t → t.seq = s.seq)
    (htick : ∀ s t, s.seq ≠ .start → R s t → Alike R (tick s) (tick t)) (k : Nat) (s t : State) (h : R s t) :
    Alike R (settle k s) (settle k t) := by
  induction k generalizing s t with
  | zero => exact .next h
  | succ k ih =>
    by_cases hq : s.seq = .start
    · rw [settle_start _ hq, settle_start _ ((hseq s t h).trans hq)]
      exact .next h
    · have hq' : t.seq ≠ .start := hseq s t h ▸ hq
      rw [settle_inside k hq, settle_inside k hq']
      exact alike_settleAfter ih (htick s t hq h)

/-- If the first tick and the ticks inside an operation answer alike, so does the step. -/
theorem alike_step (hseq : ∀ s t, R s t → t.seq = s.seq)
    (htick : ∀ s t, s.seq ≠ .start → R s t → Alike R (tick s) (tick t)) {s t : State}
    (h : Alike R (tick s) (tick t)) : Alike R (step s) (step t) := by
  rw [step_eq_settleAfter, step_eq_settleAfter]
  exact alike_settleAfter (alike_settle hseq htick settleFuel) h

end

/-- Other levels on the button lines and other contents of the external register. -/
def withOutside (x y : Level) (a b : Pattern) (s : State) : State :=
  { s with btnCount := x, btnReset := y, sr := a, q := b }

section
variable (x y : Level) (a b : Pattern)

theorem beginShiftout_withOutside (bo : Nat) (p : Pattern) (s : State) :
    beginShiftout bo p (withOutside x y a b s) = withOutside x y a b (beginShiftout bo p s) := by
  cases h : orderOfCode s.params.codes bo <;> simp only [beginShiftout, withOutside, h] <;> rfl

theorem beginRender_withOutside (bo n : Nat) (s : State) :
    beginRender bo n (withOutside x y a b s) = withOutside x y a b (beginRender bo n s) := by
  cases h : orderOfCode s.params.codes bo <;> simp only [beginRender, withOutside, h] <;> rfl

theorem encodeDigit_withOutside (d : Nat) (s : State) :
    encodeDigit d (withOutside x y a b s) = withOutside x y a b (encodeDigit d s) := by
  cases h : tableRead s.params d <;> simp only [encodeDigit, withOutside, h]
  rfl

/-- The part of an operation before its first event reads neither the button lines nor the external register, and writes
neither. -/
theorem alike_begin (i : Instr) (s : State) :
    Alike (fun t u => u = withOutside x y a b t) (begin i s) (begin i (withOutside x y a b s)) := by
  cases i with
  | shiftoutMsb | shiftoutLsb | shiftoutBadorder => exact .next (beginShiftout_withOutside x y a b _ _ s)
  | encode0 | encode1 | encode2 | encode3 | encode4 | encode5 | encode6 | encode7 | encode8 | encode9
  | encodeRangeA | encodeRangeB => exact .next (encodeDigit_withOutside x y a b _ s)
  | renderMsb | renderLsb | renderBadorder => exact .next (beginRender_withOutside x y a b _ _ s)
  | iterIdleNone => exact .next (beginRender_withOutside x y a b _ _ (onIdleNone s))
  | iterIdleCount rb => exact .next (beginRender_withOutside x y a b _ _ (onIdleCount rb s))
  | iterIdleReset => exact .next (beginRender_withOutside x y a b _ _ (onIdleReset s))
  | iterCountingRelease rb => exact .next (beginRender_withOutside x y a b _ _ (onCountingRelease rb s))
  | iterCountingHold rb => exact .next (beginRender_withOutside x y a b _ _ (onCountingHold rb s))
  | iterResettingRelease cb => exact .next (beginRender_withOutside x y a b _ _ (onResettingRelease cb s))
  | iterResettingHold cb => exact .next (beginRender_withOutside x y a b _ _ (onResettingHold cb s))
  | iterBadstate rb cb => exact .refused _

end

/-- Other contents of the external register. -/
abbrev withRegister (a b : Pattern) (s : State) : State := withOutside s.btnCount s.btnReset a b s

/-- Other levels on the button lines. -/
abbrev withButtons (x y : Level) (s : State) : State := withOutside x y s.sr s.q s

/-- The part of an operation before its first event does not write the button lines: written again with the levels they
have, they are so in its answer too. -/
theorem begin_buttons {i : Instr} {s t : State} (h : begin i s = .next t) :
    t.btnCount = s.btnCount ∧ t.btnReset = s.btnReset := by
  have hb := alike_begin s.btnCount s.btnReset s.sr s.q i s
  rw [h] at hb
  obtain ⟨u, hu, ht⟩ := alike_next hb
  have : u = t := Host.Outcome.next.inj (hu.symm.trans h)
  rw [this] at ht
  rw [ht]
  exact ⟨rfl, rfl⟩

theorem alike_begin_register (a b : Pattern) (i : Instr) (s : State) :
    Alike (fun t u => u = withRegister a b t) (begin i s) (begin i (withRegister a b s)) :=
  alike_of_next (alike_begin s.btnCount s.btnReset a b i s) fun t u hb hu => by
    obtain ⟨hx, hy⟩ := begin_buttons hb
    rw [hu, withRegister, hx, hy]

theorem alike_begin_buttons (x y : Level) (i : Instr) (s : State) :
    Alike (fun t u => u = withButtons x y t) (begin i s) (begin i (withButtons x y s)) :=
  alike_of_next (alike_begin x y s.sr s.q i s) fun t u hb hu => by
    obtain ⟨-, -, -, -, -, hsr, hq⟩ := begin_wires hb
    rw [hu, withButtons, hsr, hq]

/-- What an event does to the block does not depend on the contents of the external register (R23). -/
theorem applyEvent_withRegister (e : Event) (a b : Pattern) (s : State) :
    ∃ a' b', applyEvent e (withRegister a b s) = withRegister a' b' (applyEvent e s) := by
  cases e with
  | write l v => cases l <;> exact ⟨_, _, rfl⟩
  | delay d => exact ⟨_, _, rfl⟩

theorem applyEvent_withButtons (e : Event) (x y : Level) (s : State) :
    applyEvent e (withButtons x y s) = withButtons x y (applyEvent e s) := by
  cases e with
  | write l v => cases l <;> rfl
  | delay d => rfl

theorem arrive_withRegister (a b : Pattern) (s : State) : arrive (withRegister a b s) = withRegister a b (arrive s) := by
  cases h : s.stimulus <;> simp [arrive, withOutside, h]

/-- Two states that differ at most in the external register. -/
def SameButRegister (s t : State) : Prop := ∃ a b, t = withRegister a b s

/-- The tick at the start of an operation, with other contents of the external register (R23). -/
theorem alike_tickStart_register (a b : Pattern) (s : State) :
    Alike SameButRegister (tickStart s) (tickStart (withRegister a b s)) := by
  cases hc : s.calls with
  | nil =>
    have hc' : (withRegister a b s).calls = [] := hc
    rw [tickStart_iteration hc, tickStart_iteration hc', arrive_withRegister]
    exact .next ⟨a, b, rfl⟩
  | cons c rest =>
    have hc' : (withRegister a b s).calls = c :: rest := hc
    rw [tickStart_call hc, tickStart_call hc']
    exact alike_onDecoded fun i =>
      alike_of_next (alike_begin_register a b i { s with calls := rest }) fun _ _ _ hu => ⟨a, b, hu⟩

/-- Every tick, with other contents of the external register (R23). -/
theorem alike_tick_register {s t : State} (h : SameButRegister s t) : Alike SameButRegister (tick s) (tick t) := by
  obtain ⟨a, b, rfl⟩ := h
  by_cases hf : s.fault = .none
  case neg => exact alike_tick_halted rfl hf
  have hf' : (withRegister a b s).fault = .none := hf
  by_cases h1 : s.seq = .start
  · have h1' : (withRegister a b s).seq = .start := h1
    rw [tick_start hf h1, tick_start hf' h1']
    exact alike_tickStart_register a b s
  by_cases h2 : s.seq = .sampleReset
  · have h2' : (withRegister a b s).seq = .sampleReset := h2
    rw [tick_sampleReset hf h2, tick_sampleReset hf' h2']
    exact .next ⟨a, b, rfl⟩
  by_cases h3 : s.seq = .transition
  · have h3' : (withRegister a b s).seq = .transition := h3
    rw [tick_transition hf h3, tick_transition hf' h3']
    exact alike_of_next (alike_begin_register a b _ (withSeq .start s)) fun _ _ _ hu => ⟨a, b, hu⟩
  obtain ⟨e, he⟩ := eventNow_isSome h1 h2 h3
  have he' : eventNow (withRegister a b s) = some e := he
  obtain ⟨a', b', hab⟩ := applyEvent_withRegister e a b s
  rw [tick_event hf he, tick_event hf' he', hab]
  exact .next ⟨a', b', rfl⟩

/-- Settles O51: the ticks answer alike, so the steps do. -/
theorem externalRegisterIsNotRead : Obligations.ExternalRegisterIsNotRead := by
  intro s a b
  have h : Alike SameButRegister (step s) (step (withRegister a b s)) :=
    alike_step (fun _ _ ⟨_, _, ht⟩ => ht ▸ rfl) (fun _ _ _ => alike_tick_register) (alike_tick_register ⟨a, b, rfl⟩)
  refine ⟨fun t ht => ?_, fun r hr => alike_fault (hr ▸ h), fun r hr => alike_refused (hr ▸ h)⟩
  obtain ⟨u, hu, a', b', rfl⟩ := alike_next (ht ▸ h)
  exact ⟨a', b', hu⟩

/-- Past the samples of an iteration, two states that differ at most in the levels of the button lines. -/
def SameButButtons (x y : Level) (s t : State) : Prop := t = withButtons x y s ∧ s.seq ≠ .sampleReset

/-- A tick inside an operation and past the samples, with other levels on the button lines (R18). -/
theorem alike_tick_buttons {x y : Level} {s t : State} (h1 : s.seq ≠ .start) (h : SameButButtons x y s t) :
    Alike (SameButButtons x y) (tick s) (tick t) := by
  obtain ⟨rfl, h2⟩ := h
  by_cases hf : s.fault = .none
  case neg => exact alike_tick_halted rfl hf
  have hf' : (withButtons x y s).fault = .none := hf
  by_cases h3 : s.seq = .transition
  · have h3' : (withButtons x y s).seq = .transition := h3
    rw [tick_transition hf h3, tick_transition hf' h3']
    refine alike_of_next (alike_begin_buttons x y _ (withSeq .start s)) fun t _ hb hu => ⟨hu, ?_⟩
    rw [(begin_transition hb).2]
    simp
  obtain ⟨e, he⟩ := eventNow_isSome h1 h2 h3
  have he' : eventNow (withButtons x y s) = some e := he
  rw [tick_event hf he, tick_event hf' he', applyEvent_withButtons]
  exact .next ⟨rfl, (pastTransition_seqNext s.params h2).1⟩

/-- Settles O52: from a position past the samples the step is the ticks inside the operation, and these answer alike. -/
theorem buttonsUnreadAfterSampling : Obligations.ButtonsUnreadAfterSampling := by
  intro s x y h1 h2
  have h : Alike (SameButButtons x y) (step s) (step (withButtons x y s)) :=
    alike_step (fun _ _ ⟨ht, _⟩ => ht ▸ rfl) (fun _ _ => alike_tick_buttons) (alike_tick_buttons h1 ⟨rfl, h2⟩)
  refine ⟨fun t ht => ?_, fun r hr => alike_fault (hr ▸ h), fun r hr => alike_refused (hr ▸ h)⟩
  obtain ⟨u, hu, rfl, -⟩ := alike_next (ht ▸ h)
  exact hu

/-! ### What an operation writes (O34) -/

/-- Two states have the same configuration, the same inputs, the same button lines and the same position of the
sequencer (R17, R19, R29). -/
abbrev SameInputs (t s : State) : Prop :=
  t.params = s.params ∧ t.calls = s.calls ∧ t.stimulus = s.stimulus ∧ t.draws = s.draws ∧
    t.btnCount = s.btnCount ∧ t.btnReset = s.btnReset ∧ t.seq = s.seq

/-- `SHIFTOUT` takes a fault for a code of neither order, or it performs a frame (R81, R82). -/
theorem shiftout_cases (bo : Nat) (p : Pattern) (s : State) :
    (orderOfCode s.params.codes bo = none ∧ shiftout bo p s = raise (.configError bo) s) ∨
    ∃ o, shiftout bo p s = runEvents (frame o s.params.patternWidth p) s := by
  cases h : orderOfCode s.params.codes bo with
  | none => exact .inl ⟨rfl, shiftout_invalid h p⟩
  | some o => exact .inr ⟨o, shiftout_valid h p⟩

/-- `RENDER` decomposes, and then takes a fault for a code of neither order, or performs its events (R112, R116). -/
theorem render_cases (bo n : Nat) {s : State} (hf : s.fault = .none) :
    (orderOfCode s.params.codes bo = none ∧ render bo n s = raise (.configError bo) (decompose n s)) ∨
    ∃ es, render bo n s = runEvents es (decompose n s) := by
  cases h : orderOfCode s.params.codes bo with
  | none => exact .inl ⟨rfl, render_invalid h n hf⟩
  | some o => exact .inr ⟨_, render_valid h n hf⟩

/-- What `SHIFTOUT` leaves alone (R80): all but the shifter's lines, the external register, the trace and `FAULT`. -/
theorem shiftout_frame (bo : Nat) (p : Pattern) (s : State) :
    SameInputs (shiftout bo p s) s ∧ SameRegisters (shiftout bo p s) s ∧ (shiftout bo p s).returned = s.returned ∧
    ((shiftout bo p s).dig = s.dig ∧ (shiftout bo p s).digitEn = s.digitEn) := by
  rcases shiftout_cases bo p s with ⟨-, h⟩ | ⟨o, h⟩
  · simp [h, SameInputs, SameRegisters]
  · have hd := (runEvents_frame_lines o s.params.patternWidth p s).1
    simp [h, hd, SameInputs, SameRegisters]

/-- What `ENCODE` leaves alone (R100): all but the returned pattern and `FAULT`. -/
theorem encodeDigit_frame (d : Nat) (s : State) :
    SameInputs (encodeDigit d s) s ∧ SameRegisters (encodeDigit d s) s ∧
    ((encodeDigit d s).dig = s.dig ∧ (encodeDigit d s).digitEn = s.digitEn) := by
  unfold encodeDigit
  split <;> simp [SameInputs, SameRegisters]

/-- What `RENDER` leaves alone (R110): all but the digits, the lines, the external register, the trace and `FAULT`. -/
theorem render_frame (bo n : Nat) {s : State} (hf : s.fault = .none) :
    SameInputs (render bo n s) s ∧ SameRegisters (render bo n s) s ∧ (render bo n s).returned = s.returned := by
  rcases render_cases bo n hf with ⟨-, h⟩ | ⟨es, h⟩ <;> simp [h, SameInputs, SameRegisters]

/-- The rows that take a fault (R85, R103, R116). -/
abbrev TakesFault (i : Instr) : Prop :=
  (∃ bo p, i = .shiftoutBadorder bo p) ∨ (∃ bo n, i = .renderBadorder bo n) ∨
  (∃ d, i = .encodeRangeA d ∨ i = .encodeRangeB d)

/-- What a row, from `s` to `t`, leaves alone. -/
abbrev WritesOnlyItsOwn (i : Instr) (s t : State) : Prop :=
  SameInputs t s ∧ (isIteration i = false → SameRegisters t s) ∧ (isEncode i = false → t.returned = s.returned) ∧
  (isShiftout i = true ∨ isEncode i = true → t.dig = s.dig ∧ t.digitEn = s.digitEn) ∧
  (isEncode i = true → t.data = s.data ∧ t.clock = s.clock ∧ t.latch = s.latch ∧ t.sr = s.sr ∧ t.q = s.q ∧
    t.trace = s.trace) ∧
  (t.fault = s.fault ∨ TakesFault i)

section
variable {i : Instr} {s : State}

theorem shiftout_writes {bo : Nat} {p : Pattern} (he : isEncode i = false)
    (hf : (shiftout bo p s).fault = s.fault ∨ TakesFault i) : WritesOnlyItsOwn i s (shiftout bo p s) := by
  obtain ⟨hin, hregs, hret, hdig⟩ := shiftout_frame bo p s
  exact ⟨hin, fun _ => hregs, fun _ => hret, fun _ => hdig, fun h => by simp [he] at h, hf⟩

theorem encodeDigit_writes {d : Nat} (he : isEncode i = true)
    (hf : (encodeDigit d s).fault = s.fault ∨ TakesFault i) : WritesOnlyItsOwn i s (encodeDigit d s) := by
  obtain ⟨hin, hregs, hdig⟩ := encodeDigit_frame d s
  obtain ⟨htr, hd, hc, hl, -, hsr, hq⟩ := encodeDigit_wires d s
  exact ⟨hin, fun _ => hregs, fun h => by simp [he] at h, fun _ => hdig, fun _ => ⟨hd, hc, hl, hsr, hq, htr⟩, hf⟩

theorem render_writes {bo n : Nat} (hs : isShiftout i = false) (he : isEncode i = false) (hr : s.fault = .none)
    (hf : (render bo n s).fault = s.fault ∨ TakesFault i) : WritesOnlyItsOwn i s (render bo n s) := by
  obtain ⟨hin, hregs, hret⟩ := render_frame bo n hr
  exact ⟨hin, fun _ => hregs, fun _ => hret, fun h => by simp [hs, he] at h, fun h => by simp [he] at h, hf⟩

/-- The row of a transition to `u`, which has written only the registers and the samples (R130). -/
theorem iteration_writes (u : State) (hi : isIteration i = true) (hs : isShiftout i = false) (he : isEncode i = false)
    (hu : SameInputs u s ∧ u.returned = s.returned) (hr : s.fault = .none) (hur : u.fault = .none) :
    WritesOnlyItsOwn i s (renderCount u) := by
  obtain ⟨hin, -, hret⟩ := render_frame (displayCode u.params) u.count hur
  obtain ⟨⟨hp, hc, hst, hd, hx, hy, hq⟩, hret'⟩ := hu
  obtain ⟨hp', hc', hst', hd', hx', hy', hq'⟩ := hin
  have hf := render_fault (orderOfCode_display u.params) u.count hur
  exact ⟨⟨hp'.trans hp, hc'.trans hc, hst'.trans hst, hd'.trans hd, hx'.trans hx, hy'.trans hy, hq'.trans hq⟩,
    fun h => by simp [hi] at h, fun _ => hret.trans hret', fun h => by simp [hs, he] at h,
    fun h => by simp [he] at h, .inl (hf.trans hr.symm)⟩

end

theorem shiftout_fault (o : BitOrder) (p : Pattern) (s : State) :
    (shiftout (codeOfOrder s.params.codes o) p s).fault = s.fault := by
  obtain ⟨o', ho⟩ := orderOfCode_code_valid s.params.codes o
  rw [shiftout_valid ho, runEvents_fault]

theorem render_order_fault (o : BitOrder) (n : Nat) {s : State} (hf : s.fault = .none) :
    (render (codeOfOrder s.params.codes o) n s).fault = s.fault := by
  obtain ⟨o', ho⟩ := orderOfCode_code_valid s.params.codes o
  rw [render_fault ho n hf, hf]

theorem encodeDigit_fault {d : Nat} (h : d < 10) (s : State) : (encodeDigit d s).fault = s.fault := by
  rw [encodeDigit_inRange h]

/-- The effect of each row leaves alone what is not its own. -/
theorem effect_writes (i : Instr) {s : State} (hf : s.fault = .none) (hr : isReserved i = false) :
    WritesOnlyItsOwn i s (effect i s) := by
  cases i with
  | shiftoutMsb p => exact shiftout_writes rfl (.inl (shiftout_fault .msbFirst p s))
  | shiftoutLsb p => exact shiftout_writes rfl (.inl (shiftout_fault .lsbFirst p s))
  | shiftoutBadorder bo p => exact shiftout_writes rfl (.inr (.inl ⟨bo, p, rfl⟩))
  | encode0 | encode1 | encode2 | encode3 | encode4 | encode5 | encode6 | encode7 | encode8 | encode9 =>
    exact encodeDigit_writes rfl (.inl (encodeDigit_fault (by decide) s))
  | encodeRangeA d => exact encodeDigit_writes rfl (.inr (.inr (.inr ⟨d, .inl rfl⟩)))
  | encodeRangeB d => exact encodeDigit_writes rfl (.inr (.inr (.inr ⟨d, .inr rfl⟩)))
  | renderMsb n => exact render_writes rfl rfl hf (.inl (render_order_fault .msbFirst n hf))
  | renderLsb n => exact render_writes rfl rfl hf (.inl (render_order_fault .lsbFirst n hf))
  | renderBadorder bo n => exact render_writes rfl rfl hf (.inr (.inr (.inl ⟨bo, n, rfl⟩)))
  | iterIdleNone | iterIdleCount | iterIdleReset | iterCountingRelease | iterCountingHold | iterResettingRelease
  | iterResettingHold =>
    exact iteration_writes _ rfl rfl rfl ⟨⟨rfl, rfl, rfl, rfl, rfl, rfl, rfl⟩, rfl⟩ hf hf
  | iterBadstate => cases hr

/-- Settles O34: a row that completes has done so with its effect. -/
theorem eachOperationWritesOnlyItsOwn : Obligations.EachOperationWritesOnlyItsOwn := by
  intro i s t h
  obtain ⟨hf, hr, rfl⟩ := exec_next h
  exact effect_writes i hf hr

/-! ### The latch commits a frame (O13) -/

/-- Without a write of `LATCH` the output stage keeps its value (R24). -/
theorem runEvents_q_of_no_latch {es : List Event} (h : ∀ v, Event.write .latch v ∉ es) (s : State) :
    (runEvents es s).q = s.q := by
  induction es generalizing s with
  | nil => rfl
  | cons e rest ih =>
    have hrest : ∀ v, Event.write .latch v ∉ rest := fun v hv => h v (List.mem_cons_of_mem e hv)
    rw [runEvents, ih hrest]
    cases e with
    | delay d => rfl
    | write l v =>
      have hl : l ≠ .latch := fun hl => h v (by simp [hl])
      rw [applyEvent_write_q, if_neg (fun hc => hl hc.1)]

/-- The cells of a frame write `DATA` and `CLOCK` only (R82). -/
theorem no_latch_in_cells (bo : BitOrder) (w : PatternWidth) (p : Pattern) (js : List (Fin 8)) (v : Level) :
    Event.write .latch v ∉ cellEvents bo w p js := by
  simp [cellEvents, bitCell]

/-- The 24 events of the cells stand before the latch's rise, and after that only its fall comes (R82). -/
theorem frame_take_cells (bo : BitOrder) (p : Pattern) :
    (frame bo eightBits p).take 24 = cellEvents bo eightBits p (cells eightBits) := rfl

theorem frame_take_drop_latch (bo : BitOrder) (p : Pattern) :
    (frame bo eightBits p).take 25 ++ [.write .latch false] = frame bo eightBits p := rfl

theorem frame_length (bo : BitOrder) (p : Pattern) : (frame bo eightBits p).length = 26 := rfl

/-- The fall of the latch does not write the output stage (R24). -/
theorem runEvents_latchFall_q (es : List Event) (s : State) :
    (runEvents (es ++ [.write .latch false]) s).q = (runEvents es s).q := by
  rw [runEvents_append]
  exact (applyEvent_write_q .latch false _).trans (if_neg (by simp))

/-- After the whole frame the output stage holds the new pattern, and so it does before the latch's fall (R89). -/
theorem runEvents_frame_take_q (bo : BitOrder) (p : Pattern) {s : State} {k : Nat} (hc : s.clock = false)
    (hl : s.latch = false) (hk : 25 ≤ k) : (runEvents ((frame bo eightBits p).take k) s).q = onPins bo p := by
  have hwhole : (runEvents (frame bo eightBits p) s).q = onPins bo p := by rw [runEvents_frame bo p s hc hl]
  by_cases h : k = 25
  · rw [h, ← runEvents_latchFall_q, frame_take_drop_latch, hwhole]
  · rw [List.take_of_length_le (by rw [frame_length]; omega), hwhole]

/-- Settles O13: the cells do not write the latch, and from its rise on the frame's pattern is there. -/
theorem latchCommitsAtOnce : Obligations.LatchCommitsAtOnce := by
  intro bo p s k hc hl
  rw [frameOf_sentSequence]
  refine ⟨fun hk => runEvents_q_of_no_latch (fun v hv => ?_) s, runEvents_frame_take_q bo p hc hl⟩
  rw [show (frame bo eightBits p).take k = ((frame bo eightBits p).take 24).take k by
    rw [List.take_take, Nat.min_eq_left hk], frame_take_cells] at hv
  exact no_latch_in_cells bo eightBits p (cells eightBits) v (List.mem_of_mem_take hv)

/-! ### The inputs, the display and the values after reset (O6, O23, O40) -/

theorem arrive_listed {s : State} {x : Sample} {rest : List Sample} (h : s.stimulus = x :: rest) :
    arrive s = { s with btnReset := x.rb, btnCount := x.cb, stimulus := rest } := by
  simp only [arrive, h]

theorem arrive_unlisted {s : State} (h : s.stimulus = []) :
    arrive s =
      { s with
        btnReset := Config.freeBtnReset s.draws, btnCount := Config.freeBtnCount s.draws, draws := s.draws + 1 } := by
  simp only [arrive, h]

/-- Settles O6: the two cases of the stimulus. -/
theorem stimulusReachesButtons : Obligations.StimulusReachesButtons :=
  ⟨fun _ _ _ h => arrive_listed h, fun _ h => ⟨_, _, arrive_unlisted h⟩⟩

/-- The pin of a segment carries its pattern bit, the pattern being reversed on the pins (R104). -/
theorem rev8_segmentPin (p : Pattern) (sg : Segment) : (rev8 p).getLsbD (segmentPin sg) = p.getLsbD (segmentBit sg) := by
  have hb : segmentBit sg < 8 := by cases sg <;> decide
  have hp : segmentPin sg < 8 := by unfold segmentPin; omega
  rw [rev8_bit p _ hp, segmentPin, show 7 - (7 - segmentBit sg) = segmentBit sg by omega]

/-- Settles O23: the position that is on shows the pins, and each carries its segment's bit. -/
theorem segmentsLightFromPattern : Obligations.SegmentsLightFromPattern := by
  intro s i p sg hd hq
  obtain ⟨hon, hoff⟩ := visible_one hd
  refine ⟨?_, hoff⟩
  rw [lit, hon, hq]
  exact rev8_segmentPin p sg

/-- Settles O40: the fields of the reset state and the default table. -/
theorem resetValues : Obligations.ResetValues :=
  ⟨rfl, rfl, rfl, rfl, rfl, rfl, rfl, rfl, rfl, rfl, rfl⟩

end Sys2Proof.Machine
end

section
/-! SUPPORT. Family 20_memory.md: the digits of a number, the two orders of a frame, and what a harness on the lines
reads back. -/

namespace Sys2Proof.Machine

/-! ### What a harness sees of the events (O21) -/

/-- The harness sees what the first event shows, and follows it (R118). -/
theorem shownBy_cons (m : Probe) (e : Event) (es : List Event) :
    shownBy m (e :: es) = shownBy m [e] ++ shownBy (m.follow e) es := by
  rcases e with ⟨l, v⟩ | t
  · cases l with
    | data | clock | latch => rfl
    | digitEn i => cases v <;> rfl
  · rfl

/-- The harness that has seen some events of a run is attached to the state after them (R24). -/
theorem shownBy_append (a b : List Event) (s : State) :
    shownBy (probeOf s) (a ++ b) = shownBy (probeOf s) a ++ shownBy (probeOf (runEvents a s)) b := by
  induction a generalizing s with
  | nil => rfl
  | cons e rest ih =>
    rw [List.cons_append, shownBy_cons, shownBy_cons _ e rest, ← probeOf_applyEvent, ih, runEvents, List.append_assoc]

/-- Only the fall of a digit line shows a pattern. -/
theorem shownBy_of_no_enable {es : List Event} (h : ∀ i, Event.write (.digitEn i) false ∉ es) (m : Probe) :
    shownBy m es = [] := by
  induction es generalizing m with
  | nil => rfl
  | cons e rest ih =>
    have hrest : ∀ i, Event.write (.digitEn i) false ∉ rest := fun i hi => h i (List.mem_cons_of_mem e hi)
    rw [shownBy_cons, ih hrest, List.append_nil]
    rcases e with ⟨l, v⟩ | t
    · cases l with
      | data | clock | latch => rfl
      | digitEn i =>
        cases v with
        | true => rfl
        | false => exact absurd List.mem_cons_self (h i)
    · rfl

/-- A frame is sent with every digit line at rest, so it shows nothing (R82, R114). -/
theorem shownBy_frame (bo : BitOrder) (w : PatternWidth) (p : Pattern) (m : Probe) :
    shownBy m (frame bo w p) = [] :=
  shownBy_of_no_enable (fun i => by simp [frame, cellEvents, bitCell]) m

/-- A hold shows the output stage at its position, once (R115). -/
theorem shownBy_illuminate (i : Position) (t : Nat) (m : Probe) : shownBy m (illuminate i t) = [(i, m.q)] := rfl

/-- A position of `RENDER` started with clock and latch low shows its digit's pattern there, whatever the register held
(R119). -/
theorem shownBy_position (bo : BitOrder) {ps : Params} (hw : ps.patternWidth.toNat = 8) (d : Fin 10) (i : Position)
    {s : State} (hc : s.clock = false) (hl : s.latch = false) :
    shownBy (probeOf s) (positionTrace bo ps d i) = [(i, onPins bo (segmentOf ps d))] := by
  have hq : (runEvents (frame bo ps.patternWidth (segmentOf ps d)) s).q = onPins bo (segmentOf ps d) := by
    rw [PatternWidth.eq_eightBits hw, runEvents_frame bo _ s hc hl]
  rw [positionTrace, shownBy_append, shownBy_frame, shownBy_illuminate, List.nil_append, probeOf, hq]

/-- Positions in order are shown in order, each once: every one of them leaves clock and latch low for the next. -/
theorem shownBy_positions (bo : BitOrder) {ps : Params} (hw : ps.patternWidth.toNat = 8) (dg : PerPosition (Fin 10))
    (todo : List Position) {s : State} (hc : s.clock = false) (hl : s.latch = false) :
    shownBy (probeOf s) (todo.flatMap (fun i => positionTrace bo ps (dg.get i) i)) =
      todo.map (fun i => (i, onPins bo (segmentOf ps (dg.get i)))) := by
  induction todo generalizing s with
  | nil => rfl
  | cons i rest ih =>
    obtain ⟨-, hc', hl'⟩ := runEvents_position_lines bo ps (dg.get i) i s
    rw [List.flatMap_cons, shownBy_append, shownBy_position bo hw _ i hc hl, ih hc' hl', List.map_cons,
      List.singleton_append]

/-- A `RENDER` of four positions of eight bits shows the pattern of each digit of `n`, ones to thousands (R118). -/
theorem shownBy_render (bo : BitOrder) (n : Nat) {s : State} (hp : FullSize s.params) (hc : s.clock = false)
    (hl : s.latch = false) :
    shownBy (probeOf s) (renderEvents bo s.params (decimalDigits s.params.radix n)) =
      Position.all.map (fun i => (i, onPins bo (patternAt s.params n i))) := by
  rw [renderEvents, DigitCount.eq_fourDigits hp.1, positionsOf_fourDigits, shownBy_positions bo hp.2 _ _ hc hl]
  simp only [segmentOf_digit]

/-! ### The digit behind a pattern (O21) -/

/-- Either order puts different patterns on the pins differently (R88). -/
theorem onPins_inj {bo : BitOrder} {p p' : Pattern} : onPins bo p = onPins bo p' ↔ p = p' := by
  cases bo with
  | msbFirst => exact Iff.rfl
  | lsbFirst =>
    refine ⟨fun h => ?_, congrArg _⟩
    rw [← BitVec.reverse_reverse_eq (x := p), ← BitVec.reverse_reverse_eq (x := p')]
    exact congrArg BitVec.reverse h

/-- In a table of ten distinct entries the entry tells the digit. -/
theorem segTable_getD_inj {ps : Params} (h : (segTable ps).Nodup) {d e : Nat} (hd : d < 10) (he : e < 10) :
    (segTable ps).getD d 0 = (segTable ps).getD e 0 ↔ d = e := by
  have hd' : d < (segTable ps).length := hd
  have he' : e < (segTable ps).length := he
  rw [List.getD_eq_getElem?_getD, List.getD_eq_getElem?_getD, List.getElem?_eq_getElem hd',
    List.getElem?_eq_getElem he', Option.getD_some, Option.getD_some, List.getElem_inj h]

/-- Settles O21: the harness follows the events of the `RENDER`, and pins and entries are distinct together. -/
theorem renderedDigitsReadBack : Obligations.RenderedDigitsReadBack := by
  intro bo n s hp hcodes hf hc hl
  refine ⟨⟨_, _, exec_renderOf bo n hf hcodes, runEvents_trace _ _, shownBy_render bo n hp hc hl⟩,
    fun hnd i d hd => ?_⟩
  exact onPins_inj.trans (segTable_getD_inj hnd hd (digitAt_lt s.params.radix n i))

/-! ### The reversal in the other order (O12) -/

/-- Each cell of the reversal sent least significant first is the pattern's cell most significant first (R43). -/
theorem bitAt_lsb_rev8 (p : Pattern) (j : Fin 8) :
    bitAt .lsbFirst eightBits (rev8 p) j = bitAt .msbFirst eightBits p j :=
  rev8_bit p j.val j.isLt

theorem frame_lsb_rev8 (p : Pattern) : frame .lsbFirst eightBits (rev8 p) = frame .msbFirst eightBits p := by
  simp only [frame, cellEvents, bitAt_lsb_rev8]

/-- Settles O12: both rows answer the halt alike, and in a running block both perform the same frame. -/
theorem roundTripOfReversal : Obligations.RoundTripOfReversal := by
  intro p s hw hcodes
  have hsame : shiftout s.params.codes.lsbFirst (rev8 p) s = shiftout s.params.codes.msbFirst p s := by
    rw [shiftout_valid (orderOfCode_lsb hcodes), shiftout_valid (orderOfCode_msb _), PatternWidth.eq_eightBits hw,
      frame_lsb_rev8]
  exact congrArg (whileRunning s) hsame

/-! ### The decomposition (O55) -/

/-- `DIG` at a position is the digit there, which the type of a table index does not cut (R111). -/
theorem digitsOf_get_val (r : Radix) (n : Nat) (i : Position) : ((digitsOf r n).get i).val = digitAt r n i := by
  cases i <;> exact Nat.mod_eq_of_lt (digitAt_lt r n _)

/-- The weights of the four positions in radix ten (R45). -/
theorem weightOf_ten {r : Radix} (h : r.toNat = 10) :
    weightOf r .ones = 1 ∧ weightOf r .tens = 10 ∧ weightOf r .hundreds = 100 ∧ weightOf r .thousands = 1000 := by
  simp [weightOf, h]

theorem digitAt_ten {r : Radix} (h : r.toNat = 10) (n : Nat) :
    digitAt r n .ones = n % 10 ∧ digitAt r n .tens = n / 10 % 10 ∧ digitAt r n .hundreds = n / 100 % 10 ∧
    digitAt r n .thousands = n / 1000 % 10 := by
  obtain ⟨h0, h1, h2, h3⟩ := weightOf_ten h
  simp only [digitAt, h0, h1, h2, h3, h, Nat.div_one, and_self]

/-- Settles O55: the digits in radix ten, the entry of each, and `DIG` after the decomposition. -/
theorem decompositionIsDecimal : Obligations.DecompositionIsDecimal := by
  intro ps n hps
  obtain ⟨-, -, -, hten, -⟩ := hps
  obtain ⟨h0, h1, h2, h3⟩ := digitAt_ten hten n
  have hdig := digitsOf_get_val ps.radix n
  refine ⟨⟨(hdig .ones).trans h0, (hdig .tens).trans h1, (hdig .hundreds).trans h2, (hdig .thousands).trans h3⟩,
    fun i => ?_, fun s hs => ?_⟩
  · rw [hdig, patternAt]
  · rw [decompose_dig, hs, decimalDigits_eq]

end Sys2Proof.Machine
end

section
/-! SUPPORT. Family 30_encoding.md: the decoder and the encoder as inverses, the rows of the opcode table, and the word
that a step runs. -/

namespace Sys2Proof.Machine

/-! ### The choice that a bit-order code makes (O54) -/

/-- One of three values: that of the first order, that of the second, or that of a code of neither (R61). -/
def byOrder {α : Type} (c : OrderCodes) (bo : Nat) (msb lsb bad : α) : α :=
  if bo = c.msbFirst then msb else if bo = c.lsbFirst then lsb else bad

section
variable {α : Type} {c : OrderCodes} {bo : Nat} {msb lsb bad : α}

theorem byOrder_msb : byOrder c c.msbFirst msb lsb bad = msb := if_pos rfl

theorem byOrder_lsb (hm : c.lsbFirst ≠ c.msbFirst) : byOrder c c.lsbFirst msb lsb bad = lsb :=
  (if_neg hm).trans (if_pos rfl)

theorem byOrder_bad (hm : bo ≠ c.msbFirst) (hl : bo ≠ c.lsbFirst) : byOrder c bo msb lsb bad = bad :=
  (if_neg hm).trans (if_neg hl)

/-- With two distinct codes and three distinct values, each value is chosen by its own codes only (R61). -/
theorem byOrder_eq_iff (hc : c.distinct) (bo : Nat) (hml : msb ≠ lsb) (hmb : msb ≠ bad) (hlb : lsb ≠ bad) :
    (byOrder c bo msb lsb bad = msb ↔ bo = c.msbFirst) ∧ (byOrder c bo msb lsb bad = lsb ↔ bo = c.lsbFirst) ∧
    (byOrder c bo msb lsb bad = bad ↔ bo ≠ c.msbFirst ∧ bo ≠ c.lsbFirst) := by
  by_cases hm : bo = c.msbFirst
  · subst hm
    simp [byOrder_msb, hc, hml, hmb]
  · by_cases hl : bo = c.lsbFirst
    · subst hl
      simp [byOrder_lsb hm, hm, hml.symm, hlb]
    · simp [byOrder_bad hm hl, hm, hl, hmb.symm, hlb.symm]

end

/-- The bit order that the operand test finds (R81). -/
theorem orderOfCode_eq_byOrder (c : OrderCodes) (bo : Nat) :
    orderOfCode c bo = byOrder c bo (some .msbFirst) (some .lsbFirst) none := rfl

/-- The row of an `S10` word (R71). -/
theorem decode_s10_eq_byOrder (c : OrderCodes) {bo : Nat} (hbo : bo < 4) (p : Pattern) :
    decode c (.s10 (0x100 * bo + p.toNat)) =
      .ok (byOrder c bo (.shiftoutMsb p) (.shiftoutLsb p) (.shiftoutBadorder bo p)) := decode_s10 c bo hbo p

/-- The row of an `R2` word (R71). -/
theorem decode_r2_eq_byOrder (c : OrderCodes) {bo : Nat} (hbo : bo < 4) (n : Nat) :
    decode c (.r2 bo n) = .ok (byOrder c bo (.renderMsb n) (.renderLsb n) (.renderBadorder bo n)) :=
  decode_r2 c bo hbo n

/-- Settles O54: the operand test and both word fields are the same choice of three. -/
theorem orderCodesComeFromConfiguration : Obligations.OrderCodesComeFromConfiguration := by
  intro c bo p n hc
  rw [orderOfCode_eq_byOrder]
  obtain ⟨hmsb, hlsb, -⟩ := byOrder_eq_iff hc bo (msb := some BitOrder.msbFirst) (lsb := some .lsbFirst)
    (bad := none) (by simp) (by simp) (by simp)
  refine ⟨hmsb, hlsb, fun hbo => ?_⟩
  simp only [decode_s10_eq_byOrder c hbo p, decode_r2_eq_byOrder c hbo n, Except.ok.injEq]
  obtain ⟨hsm, hsl, hsb⟩ := byOrder_eq_iff hc bo (msb := Instr.shiftoutMsb p) (lsb := .shiftoutLsb p)
    (bad := .shiftoutBadorder bo p) (by simp) (by simp) (by simp)
  obtain ⟨hrm, hrl, hrb⟩ := byOrder_eq_iff hc bo (msb := Instr.renderMsb n) (lsb := .renderLsb n)
    (bad := .renderBadorder bo n) (by simp) (by simp) (by simp)
  exact ⟨hsm, hsl, hsb, hrm, hrl, hrb⟩

/-! ### The decoder gives an encoded instruction back (O2) -/

theorem msbFits_iff (c : OrderCodes) : c.msbFits = true ↔ c.msbFirst < 4 := decide_eq_true_iff

theorem lsbFits_iff (c : OrderCodes) : c.lsbFits = true ↔ c.lsbFirst < 4 ∧ c.lsbFirst ≠ c.msbFirst :=
  decide_eq_true_iff

theorem badFits_iff (c : OrderCodes) (bo : Nat) :
    c.badFits bo = true ↔ bo < 4 ∧ bo ≠ c.msbFirst ∧ bo ≠ c.lsbFirst := decide_eq_true_iff

theorem wellFormed_encodeRangeA_iff (c : OrderCodes) (d : Nat) :
    (Instr.encodeRangeA d).wellFormed c = true ↔ d = 10 ∨ d = 11 := by
  simp [Instr.wellFormed]

theorem wellFormed_encodeRangeB_iff (c : OrderCodes) (d : Nat) :
    (Instr.encodeRangeB d).wellFormed c = true ↔ d = 12 ∨ d = 13 ∨ d = 14 ∨ d = 15 := by
  simp [Instr.wellFormed, or_assoc]

/-- Settles O2: a code that fits chooses its own row, a digit is in the decoder's table, and an `F4` word selects the
row of its fields. -/
theorem decodeOfEncode : Obligations.DecodeOfEncode := by
  intro c i h
  cases i with
  | shiftoutMsb p =>
    have hm := (msbFits_iff c).1 h
    rw [encode, decode_s10_eq_byOrder c hm, byOrder_msb]
  | shiftoutLsb p =>
    obtain ⟨hl, hne⟩ := (lsbFits_iff c).1 h
    rw [encode, decode_s10_eq_byOrder c hl, byOrder_lsb hne]
  | shiftoutBadorder bo p =>
    obtain ⟨hb, hm, hl⟩ := (badFits_iff c bo).1 h
    rw [encode, decode_s10_eq_byOrder c hb, byOrder_bad hm hl]
  | renderMsb n =>
    have hm := (msbFits_iff c).1 h
    rw [encode, decode_r2_eq_byOrder c hm, byOrder_msb]
  | renderLsb n =>
    obtain ⟨hl, hne⟩ := (lsbFits_iff c).1 h
    rw [encode, decode_r2_eq_byOrder c hl, byOrder_lsb hne]
  | renderBadorder bo n =>
    obtain ⟨hb, hm, hl⟩ := (badFits_iff c bo).1 h
    rw [encode, decode_r2_eq_byOrder c hb, byOrder_bad hm hl]
  | encode0 | encode1 | encode2 | encode3 | encode4 | encode5 | encode6 | encode7 | encode8 | encode9 => rfl
  | encodeRangeA d =>
    rcases (wellFormed_encodeRangeA_iff _ d).1 h with rfl | rfl <;> rfl
  | encodeRangeB d =>
    rcases (wellFormed_encodeRangeB_iff _ d).1 h with rfl | rfl | rfl | rfl <;> rfl
  | iterIdleNone => exact decode_f4Bits c .idle false false
  | iterIdleCount rb => cases rb <;> exact decode_f4Bits c .idle _ true
  | iterIdleReset => exact decode_f4Bits c .idle true false
  | iterCountingRelease rb => cases rb <;> exact decode_f4Bits c .counting _ false
  | iterCountingHold rb => cases rb <;> exact decode_f4Bits c .counting _ true
  | iterResettingRelease cb => cases cb <;> exact decode_f4Bits c .resetting false _
  | iterResettingHold cb => cases cb <;> exact decode_f4Bits c .resetting true _
  | iterBadstate rb cb => exact decode_f4Bits c .reserved rb cb

/-! ### Every word within its format is the encoding of an instruction (O3) -/

/-- A code of the two-bit field is that of the first order, that of the second, or of neither (R61). -/
theorem code_fits_cases (c : OrderCodes) {bo : Nat} (hbo : bo < 4) :
    (bo = c.msbFirst ∧ c.msbFits = true) ∨ (bo = c.lsbFirst ∧ c.lsbFits = true) ∨ c.badFits bo = true := by
  by_cases hm : bo = c.msbFirst
  · exact .inl ⟨hm, (msbFits_iff c).2 (hm ▸ hbo)⟩
  · by_cases hl : bo = c.lsbFirst
    · exact .inr (.inl ⟨hl, (lsbFits_iff c).2 (hl ▸ ⟨hbo, hm⟩)⟩)
    · exact .inr (.inr ((badFits_iff c bo).2 ⟨hbo, hm, hl⟩))

theorem exists_encode_s10 (c : OrderCodes) {bo : Nat} (hbo : bo < 4) (p : Pattern) :
    ∃ i : Instr, i.wellFormed c = true ∧ encode c i = .s10 (0x100 * bo + p.toNat) := by
  rcases code_fits_cases c hbo with ⟨rfl, h⟩ | ⟨rfl, h⟩ | h
  · exact ⟨.shiftoutMsb p, h, rfl⟩
  · exact ⟨.shiftoutLsb p, h, rfl⟩
  · exact ⟨.shiftoutBadorder bo p, h, rfl⟩

theorem exists_encode_r2 (c : OrderCodes) {bo : Nat} (hbo : bo < 4) (n : Nat) :
    ∃ i : Instr, i.wellFormed c = true ∧ encode c i = .r2 bo n := by
  rcases code_fits_cases c hbo with ⟨rfl, h⟩ | ⟨rfl, h⟩ | h
  · exact ⟨.renderMsb n, h, rfl⟩
  · exact ⟨.renderLsb n, h, rfl⟩
  · exact ⟨.renderBadorder bo n, h, rfl⟩

/-- A digit of the four-bit field is carried by a row of `ENCODE` (R62, R71). -/
theorem exists_encode_e4 (c : OrderCodes) {d : Nat} (hd : d < 16) :
    ∃ i : Instr, i.wellFormed c = true ∧ encode c i = .e4 d := by
  refine ⟨decodeE4 (BitVec.ofNat 4 d), ?_⟩
  match d, hd with
  | 0, _ | 1, _ | 2, _ | 3, _ | 4, _ | 5, _ | 6, _ | 7, _ | 8, _ | 9, _ | 10, _ | 11, _ | 12, _ | 13, _ | 14, _ | 15, _ =>
    exact ⟨rfl, rfl⟩
  | k + 16, hk => exact absurd hk (by omega)

theorem wellFormed_selectIteration (c : OrderCodes) (st : FsmState) (rb cb : Level) :
    (selectIteration st rb cb).wellFormed c = true := by
  cases st <;> cases rb <;> cases cb <;> rfl

theorem encode_selectIteration (c : OrderCodes) (st : FsmState) (rb cb : Level) :
    encode c (selectIteration st rb cb) = .f4 (f4Bits st rb cb) := by
  cases st <;> cases rb <;> cases cb <;> rfl

/-- An `F4` word is its three fields (R69). -/
theorem f4Bits_fields (w : BitVec 4) :
    f4Bits (FsmState.ofCode (w.extractLsb' 2 2)) (w.getLsbD 1) (w.getLsbD 0) = w.toNat := by
  decide +revert

theorem exists_encode_f4 (c : OrderCodes) {b : Nat} (hb : b < 16) :
    ∃ i : Instr, i.wellFormed c = true ∧ encode c i = .f4 b := by
  have hw : (BitVec.ofNat 4 b).toNat = b := Nat.mod_eq_of_lt hb
  have hfields := (f4Bits_fields (BitVec.ofNat 4 b)).trans hw
  exact ⟨_, wellFormed_selectIteration c _ _ _, (encode_selectIteration c _ _ _).trans (congrArg _ hfields)⟩

/-- Every word within its format carries a well-formed instruction (R71). -/
theorem exists_encode (c : OrderCodes) {r : RawWord} (h : r.bits < 2 ^ r.format.width) :
    ∃ i : Instr, i.wellFormed c = true ∧ encode c i = r := by
  cases r with
  | s10 b =>
    have hb : b < 1024 := h
    have hbo : b / 0x100 < 4 := by omega
    have hsplit : 0x100 * (b / 0x100) + (BitVec.ofNat 8 b).toNat = b := Nat.div_add_mod b 0x100
    rw [← hsplit]
    exact exists_encode_s10 c hbo _
  | e4 b => exact exists_encode_e4 c h
  | r2 b n => exact exists_encode_r2 c h n
  | f4 b => exact exists_encode_f4 c h

/-- A number with more bits than its format is rejected by name (log entry 22). -/
theorem decode_tooWide (c : OrderCodes) {r : RawWord} (h : ¬ r.bits < 2 ^ r.format.width) :
    decode c r = .error (.wordTooWide r.format r.bits) := if_neg h

/-- Only a word within its format decodes. -/
theorem fits_of_decode_ok {c : OrderCodes} {r : RawWord} {i : Instr} (h : decode c r = .ok i) :
    r.bits < 2 ^ r.format.width := by
  by_cases hw : r.bits < 2 ^ r.format.width
  · exact hw
  · rw [decode_tooWide c hw] at h
    cases h

/-- Settles O3: the word carries a well-formed instruction, and decoding answers that one. -/
theorem encodeOfDecode : Obligations.EncodeOfDecode := by
  intro c r i h
  obtain ⟨j, hj, rfl⟩ := exists_encode c (fits_of_decode_ok h)
  have hij : i = j := Except.ok.inj (h.symm.trans (decodeOfEncode c j hj))
  rw [hij]
  exact ⟨hj, rfl⟩

/-! ### The rows of the opcode table (O4) -/

/-- The mnemonics of the rows that match a word. -/
def rowsOf (r : RawWord) : List String := (opcodeRows.filter (fun row => row.hits r)).map OpcodeRow.mnemonic

/-- A mask that lies above the low `k` bits does not see them. -/
theorem and_mask_above (k a m : Nat) {b : Nat} (hb : b < 2 ^ k) :
    (2 ^ k * a + b) &&& (2 ^ k * m) = (2 ^ k * a) &&& (2 ^ k * m) := by
  apply Nat.eq_of_testBit_eq
  intro j
  by_cases hj : j < k
  · simp [Nat.testBit_two_pow_mul, Nat.not_le.2 hj]
  · simp [Nat.testBit_two_pow_mul, Nat.testBit_two_pow_mul_add a hb, hj, Nat.not_lt.1 hj]

/-- No `S10` row looks at the pattern (R71). -/
theorem s10_mask_above_pattern : ∀ row ∈ opcodeRows, row.format = .s10 → row.mask = 2 ^ 8 * (row.mask / 2 ^ 8) := by
  decide

theorem hits_of_other_format {row : OpcodeRow} {r : RawWord} (h : row.format ≠ r.format) : row.hits r = false := by
  simp [OpcodeRow.hits, h]

/-- The rows of an `S10` word are those of its code alone (R71). -/
theorem rowsOf_s10 (bo : Nat) (p : Pattern) : rowsOf (.s10 (0x100 * bo + p.toNat)) = rowsOf (.s10 (0x100 * bo)) := by
  refine congrArg (List.map OpcodeRow.mnemonic) (List.filter_congr fun row hrow => ?_)
  by_cases hf : row.format = .s10
  · have hmask := s10_mask_above_pattern row hrow hf
    have hand : (0x100 * bo + p.toNat) &&& row.mask = 0x100 * bo &&& row.mask := by
      rw [hmask]
      exact and_mask_above 8 bo _ p.isLt
    simp only [OpcodeRow.hits, RawWord.bits, RawWord.format, hand]
  · rw [hits_of_other_format hf, hits_of_other_format hf]

/-- No `R2` row looks at the number beside the word (R70). -/
theorem rowsOf_r2 (bo n : Nat) : rowsOf (.r2 bo n) = rowsOf (.r2 bo 0) := rfl

/-- The codes of the table leave 2 and 3 for neither order (R61, R71). -/
theorem badFits_tableCodes {bo : Nat} (h : tableCodes.badFits bo = true) : bo = 2 ∨ bo = 3 := by
  obtain ⟨hb, hm, hl⟩ := (badFits_iff tableCodes bo).1 h
  simp only [tableCodes] at hm hl
  omega

/-- The word of a well-formed instruction matches the instruction's row and no other (R71). -/
theorem rowsOf_encode {i : Instr} (h : i.wellFormed tableCodes = true) :
    rowsOf (encode tableCodes i) = [i.mnemonic] := by
  cases i with
  | shiftoutMsb p => exact (rowsOf_s10 0 p).trans rfl
  | shiftoutLsb p => exact (rowsOf_s10 1 p).trans rfl
  | shiftoutBadorder bo p =>
    refine (rowsOf_s10 bo p).trans ?_
    rcases badFits_tableCodes h with rfl | rfl <;> rfl
  | renderMsb n => exact (rowsOf_r2 0 n).trans rfl
  | renderLsb n => exact (rowsOf_r2 1 n).trans rfl
  | renderBadorder bo n =>
    refine (rowsOf_r2 bo n).trans ?_
    rcases badFits_tableCodes h with rfl | rfl <;> rfl
  | encode0 | encode1 | encode2 | encode3 | encode4 | encode5 | encode6 | encode7 | encode8 | encode9 => rfl
  | encodeRangeA d =>
    rcases (wellFormed_encodeRangeA_iff _ d).1 h with rfl | rfl <;> rfl
  | encodeRangeB d =>
    rcases (wellFormed_encodeRangeB_iff _ d).1 h with rfl | rfl | rfl | rfl <;> rfl
  | iterIdleNone | iterIdleReset => rfl
  | iterIdleCount b | iterCountingRelease b | iterCountingHold b | iterResettingRelease b | iterResettingHold b =>
    cases b <;> rfl
  | iterBadstate rb cb => cases rb <;> cases cb <;> rfl

/-- Settles O4: a word within its format carries a well-formed instruction, whose row is the one that matches. -/
theorem everyWordMatchesOneRow : Obligations.EveryWordMatchesOneRow := by
  refine ⟨fun r hr => ?_, fun r hr => decode_tooWide tableCodes hr⟩
  obtain ⟨i, hi, rfl⟩ := exists_encode tableCodes hr
  obtain ⟨row, hrow, hname⟩ := List.map_eq_singleton_iff.1 (rowsOf_encode hi)
  exact ⟨i, row, decodeOfEncode tableCodes i hi, hrow, hname⟩

/-- Settles O1: each word is the encoding of its row. -/
theorem sampleWordsDecode : Obligations.SampleWordsDecode :=
  ⟨decodeOfEncode tableCodes (.shiftoutLsb 0xFC#8) rfl, decodeOfEncode tableCodes (.shiftoutBadorder 2 0xFC#8) rfl,
    decodeOfEncode tableCodes (.encodeRangeA 11) rfl, decodeOfEncode tableCodes .encode9 rfl,
    decodeOfEncode tableCodes (.renderLsb 9019) rfl, decodeOfEncode tableCodes (.renderBadorder 2 9019) rfl,
    decodeOfEncode tableCodes (.iterIdleCount true) rfl, decodeOfEncode tableCodes (.iterCountingHold true) rfl,
    decodeOfEncode tableCodes (.iterResettingHold true) rfl, decodeOfEncode tableCodes (.iterBadstate false true) rfl⟩

/-! ### The word that a step runs (O5, O7, O31) -/

/-- The bits of an `F4` word, each level as a number (R69). -/
theorem f4Bits_eq (st : FsmState) (rb cb : Level) : f4Bits st rb cb = 4 * st.code + 2 * rb.toNat + cb.toNat := by
  cases rb <;> cases cb <;> rfl

/-- Settles O5: a driven word goes to the decoder, and the word formed from the levels selects the iteration's row. -/
theorem stepRunsDecodedInstruction : Obligations.StepRunsDecodedInstruction := by
  intro s hf hq
  refine ⟨fun c rest i hc hd => ?_, fun c rest e hc hd => ?_, fun i hc hd => ?_⟩
  · rw [step_call hf hq hc, hd, onDecoded]
  · rw [step_call hf hq hc, hd, onDecoded]
  · rw [← f4Bits_eq, decode_f4Bits, Except.ok.injEq] at hd
    rw [step_iteration hf hq hc, hd]

/-- A number of the opcode table that decodes stands for a word (log entry 6). -/
theorem decodeTableWord_some {nbits w : Nat} {i : Instr} (h : decodeTableWord nbits w = some i) :
    ∃ r, tableRaw nbits w = some r ∧ decode tableCodes r = .ok i := by
  unfold decodeTableWord at h
  cases hr : tableRaw nbits w with
  | none => simp [hr] at h
  | some r =>
    cases hd : decode tableCodes r with
    | error e => simp [hr, hd] at h
    | ok j =>
      have hj : j = i := by simpa [hr, hd] using h
      exact ⟨r, rfl, hj ▸ hd⟩

theorem withFetchWord_eq_placeRaw {nbits w : Nat} {r : RawWord} (h : tableRaw nbits w = some r) (s : State) :
    s.withFetchWord nbits w = placeRaw r s := by
  rw [State.withFetchWord, placeTableWord, h]

/-- A word of a directly driven operation is placed at the head of the queue (log entry 7). -/
theorem placeRaw_call (k : Call) (s : State) : placeRaw k.raw s = { s with seq := .start, calls := k :: s.calls } := by
  cases k <;> rfl

theorem isIteration_selectIteration (st : FsmState) (rb cb : Level) :
    isIteration (selectIteration st rb cb) = true := by
  rw [isIteration, encode_selectIteration]
  rfl

/-- The state `u` in which the row `i` of a word placed in `s` runs: `s` with the sequencer at its start, and for an
iteration with `STATE` and the button lines the word's own (log entries 6 and 7). -/
def RunsPlaced (i : Instr) (s u : State) : Prop :=
  (isIteration i = false → u = { s with seq := .start }) ∧
  (isIteration i = true → ∃ st rb cb, encode tableCodes i = .f4 (4 * st.code + 2 * rb.toNat + cb.toNat) ∧
    u = { s with seq := .start, calls := [], state := st, btnReset := rb, btnCount := cb })

section
variable {i : Instr} {s : State} (hf : s.fault = .none)
include hf

/-- The step of a placed operation runs its row with the queue as it was before. -/
theorem step_placeRaw_call {k : Call} (hcodes : s.params.codes = tableCodes) (hd : decode tableCodes k.raw = .ok i) :
    ∃ u, step (placeRaw k.raw s) = exec i u ∧ RunsPlaced i s u := by
  have hi : isIteration i = false := decode_call_not_iteration hd
  refine ⟨{ s with seq := .start }, ?_, fun _ => rfl, fun h => by simp [hi] at h⟩
  rw [placeRaw_call, step_call (s := { s with seq := .start, calls := k :: s.calls }) hf rfl rfl, hcodes, hd, onDecoded]

/-- The step of a placed `F4` word runs the row that its fields select, in the state that they describe. -/
theorem step_placeRaw_f4 {b : Nat} (hd : decode tableCodes (.f4 b) = .ok i) :
    ∃ u, step (placeRaw (.f4 b) s) = exec i u ∧ RunsPlaced i s u := by
  obtain ⟨st, rb, cb, hsel, hstep⟩ : ∃ st rb cb, decodeF4 (BitVec.ofNat 4 b) = selectIteration st rb cb ∧
      step (placeRaw (.f4 b) s) = exec (selectIteration st rb cb)
        { s with seq := .start, calls := [], state := st, btnReset := rb, btnCount := cb } :=
    ⟨_, _, _, rfl, step_iteration (s := placeRaw (.f4 b) s) hf rfl rfl⟩
  have hi : selectIteration st rb cb = i := by
    have hfit := fits_of_decode_ok hd
    rw [decode, if_pos hfit, Except.ok.injEq] at hd
    exact hsel.symm.trans hd
  subst hi
  refine ⟨_, hstep, fun h => by simp [isIteration_selectIteration] at h, fun _ => ⟨st, rb, cb, ?_, rfl⟩⟩
  rw [encode_selectIteration tableCodes, f4Bits_eq]

/-- The step of a placed word runs the row that it decodes to. -/
theorem step_placeRaw {r : RawWord} (hcodes : s.params.codes = tableCodes) (hd : decode tableCodes r = .ok i) :
    ∃ u, step (placeRaw r s) = exec i u ∧ RunsPlaced i s u := by
  cases r with
  | s10 b => exact step_placeRaw_call hf (k := .shiftout b) hcodes hd
  | e4 b => exact step_placeRaw_call hf (k := .encode b) hcodes hd
  | r2 b n => exact step_placeRaw_call hf (k := .render b n) hcodes hd
  | f4 b => exact step_placeRaw_f4 hf hd

end

/-- Settles O7: the number stands for a word, which is placed and then fetched. -/
theorem stepRunsPlacedWord : Obligations.StepRunsPlacedWord := by
  intro s nbits w i hf hcodes h
  obtain ⟨r, hr, hd⟩ := decodeTableWord_some h
  rw [withFetchWord_eq_placeRaw hr]
  exact step_placeRaw hf hcodes hd

/-- In a running block the row of the reserved code is refused (R73). -/
theorem exec_iterBadstate {s : State} (rb cb : Level) (hf : s.fault = .none) :
    exec (.iterBadstate rb cb) s = .refused (.reservedState rb cb) := unlessHalted_running hf _

/-- Settles O31: the reserved code selects the row that is refused. -/
theorem reservedStateRefused : Obligations.ReservedStateRefused := by
  refine ⟨fun rb cb => ?_, fun s rb cb hf => exec_iterBadstate rb cb hf, fun s rb cb ⟨hf, hq, hc, hrb, hcb⟩ hst => ?_⟩
  · have hword : f4Bits .reserved rb cb = 12 + 2 * rb.toNat + cb.toNat := f4Bits_eq .reserved rb cb
    rw [← hword, decode_f4Bits]
    rfl
  · rw [step_iteration hf hq hc, hst, hrb, hcb]
    exact exec_iterBadstate rb cb ((arrive_fault s).trans hf)

/-! ### A bit-order code of neither order (O11) -/

/-- Settles O11: the test of the order comes before any line write, and the fault it raises is the halt. -/
theorem badOrderHaltsShiftout : Obligations.BadOrderHaltsShiftout := by
  intro bo p s hm hl hf
  have hfault : shiftout bo p s = raise (.configError bo) s :=
    shiftout_invalid ((orderOfCode_none s.params.codes bo).2 ⟨hm, hl⟩) p
  have hhalt : HaltOf ({ s with fault := .configError bo } : State).fault (.configErrorHalt bo) := .configError bo
  exact ⟨(whileRunning_running hf _).trans (congrArg _ hfault), exec_halted hhalt, step_halted hhalt⟩

end Sys2Proof.Machine
end

section
/-! SUPPORT. Family 41_serial_shifter.md: what a frame leaves in the external register, from resting and from any other
levels, and how many events of each kind a `RENDER` has. -/

namespace Sys2Proof.Machine

/-! ### A frame from any levels (O10) -/

/-- A shift moves every bit up and puts the new one in `SR[0]` (R24). -/
theorem shiftIn_getLsbD (sr : Pattern) (b : Level) {k : Nat} (hk : k < 8) :
    (shiftIn sr b).getLsbD k = if k = 0 then b else sr.getLsbD (k - 1) := by
  cases k with
  | zero => simp [shiftIn]
  | succ k => simp [shiftIn, show k < 7 by omega]

/-- Some shifts move the old contents up by as many stages (R24). -/
theorem foldl_shiftIn_getLsbD_high (bits : List Level) (sr : Pattern) {k : Nat} (hk : k < 8) (hb : bits.length ≤ k) :
    (bits.foldl shiftIn sr).getLsbD k = sr.getLsbD (k - bits.length) := by
  induction bits generalizing sr with
  | nil => rfl
  | cons b rest ih =>
    rw [List.length_cons] at hb ⊢
    rw [List.foldl_cons, ih _ (by omega), shiftIn_getLsbD _ _ (by omega), if_neg (by omega), Nat.sub_sub]

/-- Below as many stages nothing of the old contents is left: what stands there are the bits shifted in (R88). -/
theorem foldl_shiftIn_getLsbD_low (bits : List Level) (sr sr' : Pattern) {k : Nat} (hk : k < 8)
    (hb : k < bits.length) : (bits.foldl shiftIn sr).getLsbD k = (bits.foldl shiftIn sr').getLsbD k := by
  induction bits generalizing sr sr' with
  | nil => cases hb
  | cons b rest ih =>
    rw [List.foldl_cons, List.foldl_cons]
    by_cases hr : k < rest.length
    · exact ih _ _ hr
    · have hk0 : k - rest.length = 0 := by rw [List.length_cons] at hb; omega
      rw [foldl_shiftIn_getLsbD_high rest _ hk (by omega), foldl_shiftIn_getLsbD_high rest _ hk (by omega), hk0,
        shiftIn_getLsbD _ _ (by decide), shiftIn_getLsbD _ _ (by decide), if_pos rfl, if_pos rfl]

/-- The levels of the cells 1 to 7 of a frame. -/
def lastSevenBits (bo : BitOrder) (p : Pattern) : List Level :=
  [1, 2, 3, 4, 5, 6, 7].map (bitAt bo eightBits p)

theorem lastSeven_eq_foldl (bo : BitOrder) (p sr : Pattern) :
    lastSeven bo p sr = (lastSevenBits bo p).foldl shiftIn sr := rfl

/-- Seven shifts bring `SR[0]` to `SR[7]`: the bit that the lost edge leaves there (R210, V65). -/
theorem lastSeven_getLsbD_seven (bo : BitOrder) (p sr : Pattern) :
    (lastSeven bo p sr).getLsbD 7 = sr.getLsbD 0 :=
  (congrArg (·.getLsbD 7) (lastSeven_eq_foldl bo p sr)).trans
    (foldl_shiftIn_getLsbD_high (lastSevenBits bo p) sr (by decide) (Nat.le_refl 7))

/-- Below `SR[7]` the last seven cells leave the pattern as it was sent, whatever the register held: the same bits as
after a whole frame. -/
theorem lastSeven_getLsbD_low (bo : BitOrder) (p sr : Pattern) {k : Nat} (hk : k < 7) :
    (lastSeven bo p sr).getLsbD k = (onPins bo p).getLsbD k := by
  have hframe : lastSeven bo p (shiftIn sr (bitAt bo eightBits p 0)) = onPins bo p := shiftIn_frame bo p sr
  rw [← hframe, lastSeven_eq_foldl, lastSeven_eq_foldl]
  exact foldl_shiftIn_getLsbD_low (lastSevenBits bo p) _ _ (by omega) hk

/-- The last level of a frame of eight bits is that of its cell 7 (R43). -/
theorem sentSequence_getD_seven (bo : BitOrder) (p : Pattern) :
    (sentSequence bo p).getD 7 false = bitAt bo eightBits p 7 := by
  cases bo <;> rfl

/-- Settles O10: the events are those of any frame, and only the first edge of the clock and that of the latch
depend on the levels. -/
theorem frameFromAnyLevels : Obligations.FrameFromAnyLevels := by
  intro bo p s hw hcodes hf
  refine ⟨lastSeven bo p (if s.clock then s.sr else shiftIn s.sr (bitAt bo eightBits p 0)), ?_,
    fun k hk => lastSeven_getLsbD_low bo p _ hk, ?_⟩
  · rw [exec_shiftoutOf bo p hf hcodes, PatternWidth.eq_eightBits hw, runEvents_frame_anyLevels,
      frameOf_sentSequence, sentSequence_getD_seven]
  · cases s.clock with
    | true => exact lastSeven_getLsbD_seven bo p s.sr
    | false => exact congrArg (·.getLsbD 7) (shiftIn_frame bo p s.sr)

/-! ### A frame from the resting levels (O8, O9) -/

/-- `SHIFTOUT` with a valid code, clock and latch low, at a width of eight: the frame, the lines after it, the pattern
in both stages, and nothing else (R82, R88). -/
theorem shiftout_fromLow {code : Nat} {bo : BitOrder} {s : State} (h : orderOfCode s.params.codes code = some bo)
    (hw : s.params.patternWidth.toNat = 8) (hc : s.clock = false) (hl : s.latch = false) (p : Pattern) :
    shiftout code p s =
      { s with
        data := bitAt bo eightBits p 7, clock := false, latch := false, sr := onPins bo p, q := onPins bo p,
        trace := s.trace ++ frameOf (sentSequence bo p) } := by
  rw [shiftout_valid h, PatternWidth.eq_eightBits hw, runEvents_frame bo p s hc hl, frameOf_sentSequence]

theorem decode_shiftoutMsb (p : Pattern) : decode tableCodes (.s10 p.toNat) = .ok (.shiftoutMsb p) := by
  rw [← Nat.zero_add p.toNat]
  exact decode_s10 tableCodes 0 (by decide) p

/-- Settles O8: the word's code is the first, and the frame puts bit 0 last and the pattern itself on the pins. -/
theorem shiftoutMsbResult : Obligations.ShiftoutMsbResult :=
  ⟨decode_shiftoutMsb, fun p s hw hf hc hl =>
    (whileRunning_running hf _).trans (congrArg _ (shiftout_fromLow (orderOfCode_msb s.params.codes) hw hc hl p))⟩

/-- Settles O9: the word's code is the second, and the frame puts bit 7 last and the reversed pattern on the pins. -/
theorem shiftoutLsbResult : Obligations.ShiftoutLsbResult :=
  ⟨fun p => decode_s10 tableCodes 1 (by decide) p,
    fun p _ hw hcodes hf hc hl =>
      (whileRunning_running hf _).trans (congrArg _ (shiftout_fromLow (orderOfCode_lsb hcodes) hw hc hl p)),
    fun p i hi => rev8_bit p i hi⟩

/-! ### The counts of one `RENDER` (O22) -/

/-- Some events are `a` writes of the shifter's lines, `b` writes of the digit lines and `c` delays (R121). -/
def HasCounts (es : List Event) (a b c : Nat) : Prop := shifterWrites es = a ∧ digitWrites es = b ∧ delays es = c

theorem hasCounts_append {es es' : List Event} {a b c a' b' c' : Nat} (h : HasCounts es a b c)
    (h' : HasCounts es' a' b' c') : HasCounts (es ++ es') (a + a') (b + b') (c + c') := by
  obtain ⟨rfl, rfl, rfl⟩ := h
  obtain ⟨rfl, rfl, rfl⟩ := h'
  simp [HasCounts, shifterWrites, digitWrites, delays]

/-- Parts with equal counts: the whole has as many times those. -/
theorem hasCounts_flatMap {α : Type} {g : α → List Event} {a b c : Nat} (h : ∀ x, HasCounts (g x) a b c)
    (l : List α) : HasCounts (l.flatMap g) (l.length * a) (l.length * b) (l.length * c) := by
  induction l with
  | nil => simp [HasCounts, shifterWrites, digitWrites, delays]
  | cons x rest ih =>
    simp only [List.flatMap_cons, List.length_cons, Nat.succ_mul, Nat.add_comm (rest.length * _)]
    exact hasCounts_append (h x) ih

/-- Every event is of one of the three kinds (R9). -/
theorem length_of_hasCounts {es : List Event} {a b c : Nat} (h : HasCounts es a b c) : es.length = a + b + c := by
  obtain ⟨rfl, rfl, rfl⟩ := h
  induction es with
  | nil => rfl
  | cons e rest ih =>
    have hone : shifterWrites [e] + digitWrites [e] + delays [e] = 1 := by
      rcases e with ⟨l, v⟩ | t
      · cases l <;> rfl
      · rfl
    obtain ⟨hshift, hdigit, hdelay⟩ : HasCounts (e :: rest) _ _ _ :=
      hasCounts_append (es := [e]) ⟨rfl, rfl, rfl⟩ ⟨rfl, rfl, rfl⟩
    rw [List.length_cons, ih, hshift, hdigit, hdelay]
    omega

theorem cells_length (w : PatternWidth) : (cells w).length = w.toNat :=
  List.length_take_of_le (patternWidth_le w)

theorem positionsOf_length (n : DigitCount) : (positionsOf n).length = n.toNat :=
  List.length_take_of_le n.pred.isLt

/-- A frame has three writes for each cell and two of the latch (R82, R91). -/
theorem hasCounts_frame (bo : BitOrder) (w : PatternWidth) (p : Pattern) :
    HasCounts (frame bo w p) (3 * w.toNat + 2) 0 0 := by
  have hcell : ∀ j, HasCounts (bitCell (bitAt bo w p j)) 3 0 0 := fun _ => ⟨rfl, rfl, rfl⟩
  have hlatch : HasCounts [.write .latch true, .write .latch false] 2 0 0 := ⟨rfl, rfl, rfl⟩
  have h := hasCounts_append (hasCounts_flatMap hcell (cells w)) hlatch
  rwa [cells_length, Nat.mul_comm] at h

/-- A position has one frame, two writes of its digit line and one delay (R112). -/
theorem hasCounts_positionTrace (bo : BitOrder) (ps : Params) (d : Fin 10) (i : Position) :
    HasCounts (positionTrace bo ps d i) (3 * ps.patternWidth.toNat + 2) 2 1 :=
  have hhold : HasCounts (illuminate i ps.tIllum) 0 2 1 := ⟨rfl, rfl, rfl⟩
  hasCounts_append (hasCounts_frame bo ps.patternWidth (segmentOf ps d)) hhold

theorem hasCounts_renderEvents (bo : BitOrder) (ps : Params) (dg : PerPosition (Fin 10)) :
    HasCounts (renderEvents bo ps dg) (ps.numDigits.toNat * (3 * ps.patternWidth.toNat + 2))
      (2 * ps.numDigits.toNat) ps.numDigits.toNat := by
  have h := hasCounts_flatMap (fun i => hasCounts_positionTrace bo ps (dg.get i) i) (positionsOf ps.numDigits)
  rwa [positionsOf_length, Nat.mul_one, Nat.mul_comm _ 2] at h

/-- The counts of the three kinds make the number of events of a `RENDER` (R121). -/
theorem renderEvents_length (bo : BitOrder) (ps : Params) (dg : PerPosition (Fin 10)) :
    (renderEvents bo ps dg).length = eventsPerRender ps := by
  rw [length_of_hasCounts (hasCounts_renderEvents bo ps dg), eventsPerRender, Nat.mul_add, Nat.mul_add]
  omega

/-- `RENDER` of either row is the events of some order, also when the two codes are one: each is a valid code (R61). -/
theorem exec_renderOf_events (bo : BitOrder) (n : Nat) {s : State} (hf : s.fault = .none) :
    ∃ o, exec (renderOf bo n) s =
      .next (runEvents (renderEvents o s.params (decimalDigits s.params.radix n)) (decompose n s)) := by
  obtain ⟨o, ho⟩ := orderOfCode_code_valid s.params.codes bo
  refine ⟨o, ?_⟩
  rw [← render_valid ho n hf]
  cases bo <;> exact whileRunning_running hf _

/-- Settles O22: the counts of each kind add up position by position, and every event is of one kind. -/
theorem renderEventCounts : Obligations.RenderEventCounts := by
  intro bo n s hf
  obtain ⟨o, hexec⟩ := exec_renderOf_events bo n hf
  obtain ⟨hshift, hdigit, hdelay⟩ := hasCounts_renderEvents o s.params (decimalDigits s.params.radix n)
  have hlen := renderEvents_length o s.params (decimalDigits s.params.radix n)
  refine ⟨_, _, hexec, runEvents_trace _ _, hshift, hdigit, hdelay, hlen, fun ⟨hn, hw⟩ => ?_⟩
  rw [hshift, hdigit, hdelay, hlen, eventsPerRender, hn, hw]
  decide

end Sys2Proof.Machine
end

section
/-! SUPPORT. Family 42_segment_encoder.md: the row of a digit, its word and its meaning, and the stop on a digit out of
range. -/

namespace Sys2Proof.Machine

/-! ### The row of a digit (O15) -/

/-- The row of a digit is carried by the `E4` word of that digit (R71). -/
theorem encode_encodeOf (d : Fin 10) :
    (encodeOf d).wellFormed tableCodes = true ∧ encode tableCodes (encodeOf d) = .e4 d.val := by
  decide +revert

/-- The ten rows share one meaning, that of `ENCODE` with their own digit (R102). -/
theorem exec_encodeOf (d : Fin 10) (s : State) : exec (encodeOf d) s = whileRunning s (encodeDigit d.val s) := by
  match d with
  | 0 | 1 | 2 | 3 | 4 | 5 | 6 | 7 | 8 | 9 => rfl

/-- `ENCODE` of a digit returns the entry of `SEG_TABLE` at that digit and writes nothing else (R101, R102). -/
theorem encodeDigit_entry (d : Fin 10) (s : State) :
    encodeDigit d.val s = { s with returned := some ((segTable s.params).getD d.val 0) } := by
  rw [encodeDigit_inRange d.isLt, segmentOf_eq_entry, Fin.ofNat_val_eq_self]

theorem exec_encodeOf_running (d : Fin 10) {s : State} (hf : s.fault = .none) :
    exec (encodeOf d) s = .next { s with returned := some ((segTable s.params).getD d.val 0) } := by
  rw [exec_encodeOf, whileRunning_running hf, encodeDigit_entry]

/-- Settles O15: the word is the one that carries the digit's row, the row returns the entry, and the entries 0, 1 and
9 are those of the configuration. -/
theorem encodeReturnsEntry : Obligations.EncodeReturnsEntry := by
  refine ⟨fun d s hf => ⟨?_, exec_encodeOf_running d hf⟩, fun s hp hf => ?_, by decide⟩
  · obtain ⟨hwf, hword⟩ := encode_encodeOf d
    rw [← hword]
    exact decodeOfEncode tableCodes _ hwf
  · obtain ⟨-, -, -, -, h0, h1, h9, -⟩ := hp
    rw [← h0, ← h1, ← h9]
    exact ⟨exec_encodeOf_running 0 hf, exec_encodeOf_running 1 hf, exec_encodeOf_running 9 hf⟩

/-! ### A digit out of range (O16) -/

/-- Settles O16: the table has no entry for the digit, so both rows raise the fault, and the fault is the halt. -/
theorem digitOutOfRangeHalts : Obligations.DigitOutOfRangeHalts := by
  intro d s hd hf
  have hraise : whileRunning s (encodeDigit d s) = .next (raise (.digitRange d) s) := by
    rw [whileRunning_running hf, encodeDigit_outOfRange (Nat.not_lt.2 hd)]
  have hhalt : HaltOf ({ s with fault := .digitRange d } : State).fault (.digitRangeHalt d) := .digitRange d
  exact ⟨hraise, hraise, exec_halted hhalt, step_halted hhalt⟩

end Sys2Proof.Machine
end

section
/-! SUPPORT. Family 43_display_driver.md: the run of the loop, and what a `RENDER` leaves in each of its forms. -/

namespace Sys2Proof.Machine

/-! ### The loop runs for ever (O49) -/

/-- A running block of the invariant at the start of an iteration of the loop (R130, R140). -/
abbrev AtIteration (s : State) : Prop := BlockInv s ∧ s.fault = .none ∧ s.seq = .start ∧ s.calls = []

/-- A transition leaves the inputs and the trace alone (R130). -/
theorem transitionOf_frame (st : FsmState) (rb cb : Level) (s : State) :
    SameInputs (transitionOf st rb cb s) s ∧ (transitionOf st rb cb s).trace = s.trace := by
  cases st <;> cases rb <;> cases cb <;> exact ⟨⟨rfl, rfl, rfl, rfl, rfl, rfl, rfl⟩, rfl⟩

/-- The `RENDER` that ends an iteration raises nothing, leaves the queue alone and adds the events of one `RENDER`, for
any sizes (R121, R130). -/
theorem renderCount_running {s : State} (hf : s.fault = .none) :
    (renderCount s).fault = .none ∧ (renderCount s).calls = s.calls ∧
      (renderCount s).trace.length = s.trace.length + eventsPerRender s.params := by
  rw [renderCount_eq s hf, runEvents_trace, List.length_append, renderEvents_length]
  simp [hf]

/-- An iteration completes in a state of the invariant with the next one before it, and adds the events of one `RENDER`:
its row is that of a named state, whatever the buttons do (R130, R140). -/
theorem step_atIteration {s : State} (h : AtIteration s) :
    ∃ t, step s = .next t ∧ AtIteration t ∧ t.params = s.params ∧
      t.trace.length = s.trace.length + eventsPerRender s.params := by
  obtain ⟨hinv, hf, hq, hc⟩ := h
  obtain ⟨⟨hnamed, -⟩, -⟩ := blockInv_parts hinv
  have hfa : (arrive s).fault = .none := (arrive_fault s).trans hf
  have hrow : isReserved (selectIteration s.state (arrive s).btnReset (arrive s).btnCount) = false := by
    rw [isReserved_selectIteration, decide_eq_false hnamed]
  have hstep := step_iteration hf hq hc
  rw [exec_running hfa hrow, effect_selectIteration _ _ _ hnamed] at hstep
  obtain ⟨⟨hp, hcalls, -⟩, htr⟩ :=
    transitionOf_frame s.state (arrive s).btnReset (arrive s).btnCount (arrive s)
  obtain ⟨hft, hct, hlen⟩ := renderCount_running ((transitionOf_fault s.state _ _ (arrive s)).trans hfa)
  rw [hcalls, arrive_calls, hc] at hct
  rw [htr, hp, arrive_trace, arrive_params] at hlen
  exact ⟨_, hstep, ⟨stepKeepsInvariant _ _ hinv hstep, hft, step_ends hstep, hct⟩, step_params hstep, hlen⟩

theorem runSteps_succ {s t : State} (h : step s = .next t) (k : Nat) : runSteps (k + 1) s = runSteps k t := by
  rw [runSteps, h]

/-- Every number of iterations completes, with the next one before the block, each with the events of one `RENDER`. -/
theorem runSteps_atIteration (k : Nat) {s : State} (h : AtIteration s) :
    ∃ t, runSteps k s = .next t ∧ AtIteration t ∧
      t.trace.length = s.trace.length + eventsPerRender s.params * k := by
  induction k generalizing s with
  | zero => exact ⟨s, rfl, h, rfl⟩
  | succ k ih =>
    obtain ⟨u, hstep, hu, hp, hlen⟩ := step_atIteration h
    obtain ⟨t, hrun, ht, hlent⟩ := ih hu
    refine ⟨t, (runSteps_succ hstep k).trans hrun, ht, ?_⟩
    rw [hlent, hlen, hp, Nat.mul_succ]
    omega

theorem eventsPerRender_full {ps : Params} (h : FullSize ps) : eventsPerRender ps = 116 := by
  obtain ⟨hn, hw⟩ := h
  rw [eventsPerRender, hn, hw]

/-- Settles O49, by induction on the number of iterations: each leaves the block where the next one starts. -/
theorem loopRunsForEver : Obligations.LoopRunsForEver := by
  intro k s hinv hf hq hc
  obtain ⟨t, hrun, ⟨-, hft, hqt, hct⟩, hlen⟩ := runSteps_atIteration k ⟨hinv, hf, hq, hc⟩
  exact ⟨t, hrun, hft, hqt, hct, hlen, fun hfull => by rw [hlen, eventsPerRender_full hfull]⟩

/-! ### The state after a `RENDER` (O17, O18) -/

/-- The decomposition writes the digits of `n` and nothing else (R111). -/
theorem decompose_eq (n : Nat) (s : State) : decompose n s = { s with dig := digitsOf s.params.radix n } := by
  rw [decompose, decimalDigits_eq]

/-- Settles O17: the words are those of the two codes, and after the decomposition the last of the four positions leaves
the lines and the register as its frame does. -/
theorem renderResult : Obligations.RenderResult := by
  refine ⟨fun n => ⟨decode_r2 tableCodes 0 (by decide) n, decode_r2 tableCodes 1 (by decide) n⟩,
    fun bo n s hp hc hf => ?_⟩
  have hlast : segmentOf s.params (decimalDigits s.params.radix n).thousands = patternAt s.params n .thousands :=
    segmentOf_digit s.params n .thousands
  rw [exec_renderOf bo n hf hc, runEvents_render bo s.params hp, hlast, ← renderTrace_eq, decompose_eq,
    sentSequence_getD_seven]

/-- Settles O18: the decomposition comes before the test of the first frame, which raises the fault. -/
theorem badOrderHaltsRender : Obligations.BadOrderHaltsRender := by
  intro bo n s hm hl hf
  have hcode : orderOfCode s.params.codes bo = none := (orderOfCode_none s.params.codes bo).2 ⟨hm, hl⟩
  have hfault : render bo n s = raise (.configError bo) { s with dig := digitsOf s.params.radix n } := by
    rw [render_invalid hcode n hf, decompose_eq]
  exact (whileRunning_running hf _).trans (congrArg _ hfault)

/-! ### Only the low four digits count (O19) -/

/-- The digit at each position lies within the low four, so a multiple of the fourth power of the radix does not reach
it (R45). -/
theorem weightOf_mul_radix_dvd (r : Radix) (i : Position) : weightOf r i * r.toNat ∣ r.toNat ^ 4 := by
  cases i with
  | ones => exact ⟨r.toNat ^ 3, by simp only [weightOf, Nat.pow_succ, Nat.pow_zero, Nat.one_mul, Nat.mul_assoc]⟩
  | tens => exact ⟨r.toNat ^ 2, by simp only [weightOf, Nat.pow_succ, Nat.pow_zero, Nat.one_mul, Nat.mul_assoc]⟩
  | hundreds => exact ⟨r.toNat, by simp only [weightOf, Nat.pow_succ, Nat.pow_zero, Nat.one_mul, Nat.mul_assoc]⟩
  | thousands =>
    exact ⟨1, by simp only [weightOf, Nat.pow_succ, Nat.pow_zero, Nat.one_mul, Nat.mul_one, Nat.mul_assoc]⟩

theorem digitAt_mod (r : Radix) (n : Nat) (i : Position) : digitAt r (n % r.toNat ^ 4) i = digitAt r n i := by
  obtain ⟨c, hc⟩ := weightOf_mul_radix_dvd r i
  rw [digitAt, digitAt, hc, Nat.mul_assoc, Nat.mod_mul_right_div_self, Nat.mod_mul_right_mod]

/-- A `RENDER` sees its number through the digits alone (R113). -/
theorem render_mod (bo n : Nat) (s : State) : render bo (n % s.params.radix.toNat ^ 4) s = render bo n s := by
  have hdig : decompose (n % s.params.radix.toNat ^ 4) s = decompose n s := by
    simp only [decompose_eq, digitsOf, digitAt_mod]
  exact congrArg (renderPositions bo (positionsOf s.params.numDigits)) hdig

/-- Settles O19: each form is the `RENDER` of its code, and the fourth power of ten is 10000. -/
theorem renderTruncates : Obligations.RenderTruncates := by
  rintro n m s rfl
  have hsame : ∀ bo, whileRunning s (render bo n s) =
      whileRunning s (render bo (n % s.params.radix.toNat ^ 4) s) := fun bo => by rw [render_mod]
  refine ⟨hsame _, hsame _, hsame, fun hps => ?_⟩
  obtain ⟨-, -, -, hten, -⟩ := hps
  exact congrArg (n % · ^ 4) hten

end Sys2Proof.Machine
end

section
/-! SUPPORT. Family 44_counter_fsm.md: the seven transitions, the samples they ignore, the graph of `STATE`, and the
counting laws. -/

namespace Sys2Proof.Machine

/-! ### The row of each state and its samples -/

theorem selectIteration_idle_count (rb : Level) : selectIteration .idle rb true = .iterIdleCount rb := by
  cases rb <;> rfl

theorem selectIteration_counting_release (rb : Level) :
    selectIteration .counting rb false = .iterCountingRelease rb := by
  cases rb <;> rfl

theorem selectIteration_counting_hold (rb : Level) : selectIteration .counting rb true = .iterCountingHold rb := by
  cases rb <;> rfl

theorem selectIteration_resetting_release (cb : Level) :
    selectIteration .resetting false cb = .iterResettingRelease cb := by
  cases cb <;> rfl

theorem selectIteration_resetting_hold (cb : Level) : selectIteration .resetting true cb = .iterResettingHold cb := by
  cases cb <;> rfl

theorem transitionOf_idle_count (rb : Level) (s : State) : transitionOf .idle rb true s = onIdleCount rb s := by
  cases rb <;> rfl

theorem transitionOf_counting_release (rb : Level) (s : State) :
    transitionOf .counting rb false s = onCountingRelease rb s := by
  cases rb <;> rfl

theorem transitionOf_counting_hold (rb : Level) (s : State) :
    transitionOf .counting rb true s = onCountingHold rb s := by
  cases rb <;> rfl

theorem transitionOf_resetting_release (cb : Level) (s : State) :
    transitionOf .resetting false cb s = onResettingRelease cb s := by
  cases cb <;> rfl

theorem transitionOf_resetting_hold (cb : Level) (s : State) :
    transitionOf .resetting true cb s = onResettingHold cb s := by
  cases cb <;> rfl

/-! ### The iteration that its samples select -/

/-- The row that runs is the one selected by `STATE` and the two samples (R69, R130). -/
theorem step_of_iterationStarts {s : State} {rb cb : Level} (h : IterationStarts s rb cb) :
    step s = exec (selectIteration s.state rb cb) (arrive s) := by
  obtain ⟨hf, hq, hc, rfl, rfl⟩ := h
  exact step_iteration hf hq hc

/-- A transition sees of its state what the arriving levels leave alone. -/
theorem transitionOf_arrive_registers (st : FsmState) (rb cb : Level) (s : State) :
    SameRegisters (transitionOf st rb cb (arrive s)) (transitionOf st rb cb s) := by
  cases st <;> cases rb <;> cases cb <;>
    simp [SameRegisters, transitionOf, onIdleNone, onIdleCount, onIdleReset, onCountingRelease, onCountingHold,
      onResettingRelease, onResettingHold]

/-- The block runs and stands at the start of an iteration of the loop (R130). -/
abbrev Ready (s : State) : Prop := s.fault = .none ∧ s.seq = .start ∧ s.calls = []

/-- An iteration of a named state completes: its registers are those of the transition, and the next iteration is before
the block (R130). -/
theorem step_transitionOf {s : State} {rb cb : Level} (h : IterationStarts s rb cb) (hst : s.state ≠ .reserved) :
    ∃ t, step s = .next t ∧ SameRegisters t (transitionOf s.state rb cb s) ∧ Ready t ∧ t.params = s.params ∧
      t.stimulus = (arrive s).stimulus := by
  obtain ⟨hf, hq, hc, -, -⟩ := id h
  have hfa : (arrive s).fault = .none := (arrive_fault s).trans hf
  have hrow : isReserved (selectIteration s.state rb cb) = false := by
    rw [isReserved_selectIteration, decide_eq_false hst]
  have hstep := step_of_iterationStarts h
  rw [exec_running hfa hrow, effect_selectIteration rb cb _ hst] at hstep
  obtain ⟨⟨hp, hcalls, hstim, -⟩, -⟩ := transitionOf_frame s.state rb cb (arrive s)
  have hfu := (transitionOf_fault s.state rb cb (arrive s)).trans hfa
  rw [renderCount_eq _ hfu] at hstep
  refine ⟨_, hstep, ?_, ⟨by simpa using hfu, step_ends hstep, by simpa [hc] using hcalls⟩, step_params hstep,
    by simpa using hstim⟩
  simpa [SameRegisters] using transitionOf_arrive_registers s.state rb cb s

/-! ### The seven rows (O24 to O30, O32) -/

/-- A row in `s` whose transition leads to `u` is the `RENDER` of the count of `u` in the display's bit order, and
leaves the registers of `u` (R130). -/
theorem whileRunning_renderCount {s u : State} (hs : s.fault = .none) (hu : u.fault = .none) :
    whileRunning s (renderCount u) = exec (renderOf u.params.displayBitOrder u.count) u ∧
    ∃ t, whileRunning s (renderCount u) = .next t ∧ t.count = u.count ∧ t.pd = u.pd ∧ t.state = u.state ∧
      t.fault = .none ∧
      (ThisHardware u.params → t.trace = u.trace ++ renderTrace .lsbFirst u.params u.count) := by
  rw [whileRunning_running hs]
  refine ⟨?_, renderCount u, rfl, ?_⟩
  · have hexec : ∀ bo, exec (renderOf bo u.count) u = .next (render (codeOfOrder u.params.codes bo) u.count u) := by
      intro bo
      cases bo <;> exact whileRunning_running hu _
    exact (hexec _).symm
  · rw [renderCount_eq u hu]
    refine ⟨by simp, by simp, by simp, by simpa using hu, fun hhw => ?_⟩
    obtain ⟨hcodes, horder, -⟩ := hhw
    have hlsb : displayOrder u.params = .lsbFirst := by
      rw [displayOrder, hcodes, if_pos (by decide), horder]
    rw [runEvents_trace, hlsb, ← renderTrace_eq, decompose_trace]

/-- Settles O24: nothing is written but the samples, so the count that is rendered is the one before. -/
theorem idleNoneKeepsCount : Obligations.IdleNoneKeepsCount := by
  refine ⟨decode_f4Bits tableCodes .idle false false, fun s h hst => ?_,
    fun s hf => whileRunning_renderCount (u := onIdleNone s) hf hf⟩
  rw [step_of_iterationStarts h, hst]
  rfl

/-- Settles O25: each word carries the row of its reset sample, and the count that is rendered is the new one. -/
theorem idleCountIncrements : Obligations.IdleCountIncrements := by
  refine ⟨decode_f4Bits tableCodes .idle false true, decode_f4Bits tableCodes .idle true true,
    fun s rb h hst => ?_, fun s rb hf => whileRunning_renderCount (u := onIdleCount rb s) hf hf⟩
  rw [step_of_iterationStarts h, hst, selectIteration_idle_count]

/-- Settles O26: reset alone selects the row, and the count that is rendered is 0. -/
theorem idleResetZeroes : Obligations.IdleResetZeroes := by
  refine ⟨decode_f4Bits tableCodes .idle true false, fun s h hst => ?_,
    fun s hf => whileRunning_renderCount (u := onIdleReset s) hf hf⟩
  rw [step_of_iterationStarts h, hst]
  rfl

/-- Settles O27: each word carries the row of its reset sample, and besides the samples only `STATE` is written. -/
theorem countingReleaseReturnsToIdle : Obligations.CountingReleaseReturnsToIdle := by
  refine ⟨decode_f4Bits tableCodes .counting false false, decode_f4Bits tableCodes .counting true false,
    fun s rb h hst => ?_, fun s rb hf => whileRunning_renderCount (u := onCountingRelease rb s) hf hf⟩
  rw [step_of_iterationStarts h, hst, selectIteration_counting_release]

/-- The count after an iteration of a hold is tested against the press duration just written (R136). -/
theorem onCountingHold_count (rb : Level) (s : State) :
    (onCountingHold rb s).count = if s.params.repeatThreshold ≤ s.pd + 1 then s.count + 1 else s.count := by
  simp [onCountingHold, repeatDue]

/-- Settles O28: the count that is rendered is the one after the test of the new press duration. -/
theorem countingHoldRepeats : Obligations.CountingHoldRepeats := by
  refine ⟨decode_f4Bits tableCodes .counting false true, decode_f4Bits tableCodes .counting true true,
    fun s rb h hst => ?_, fun s rb c hf hc => ?_⟩
  · rw [step_of_iterationStarts h, hst, selectIteration_counting_hold]
  · have hcount : (onCountingHold rb s).count = c := (onCountingHold_count rb s).trans hc.symm
    have hthirty : ThisHardware s.params → c = if s.pd + 1 ≥ 30 then s.count + 1 else s.count := by
      rintro ⟨-, -, hthreshold, -⟩
      rw [hc, hthreshold]
    subst hcount
    obtain ⟨hexec, t, ht, htc, htpd, hts, htf, htr⟩ := whileRunning_renderCount (u := onCountingHold rb s) hf hf
    exact ⟨hexec, t, ht, htc, hthirty, htpd, hts, htf, htr⟩

/-- Settles O29: each word carries the row of its count sample, and besides the samples only `STATE` is written. -/
theorem resettingReleaseReturnsToIdle : Obligations.ResettingReleaseReturnsToIdle := by
  refine ⟨decode_f4Bits tableCodes .resetting false false, decode_f4Bits tableCodes .resetting false true,
    fun s cb h hst => ?_, fun s cb hf => whileRunning_renderCount (u := onResettingRelease cb s) hf hf⟩
  rw [step_of_iterationStarts h, hst, selectIteration_resetting_release]

/-- Settles O30: each word carries the row of its count sample, and the count that is rendered is 0. -/
theorem resettingHoldKeepsZero : Obligations.ResettingHoldKeepsZero := by
  refine ⟨decode_f4Bits tableCodes .resetting true false, decode_f4Bits tableCodes .resetting true true,
    fun s cb h hst => ?_, fun s cb hf => whileRunning_renderCount (u := onResettingHold cb s) hf hf⟩
  rw [step_of_iterationStarts h, hst, selectIteration_resetting_hold]

/-- A step in `IDLE` that samples the count button pressed adds one and enters `COUNTING` with the press duration at 0,
whatever the reset sample, which it records (R132, R133). -/
theorem step_idle_count {s : State} {rb : Level} (h : IterationStarts s rb true) (hst : s.state = .idle) :
    ∃ t, step s = .next t ∧ (t.count = s.count + 1 ∧ t.pd = 0 ∧ t.state = .counting ∧ t.rb = rb) ∧ Ready t ∧
      t.params = s.params ∧ t.stimulus = (arrive s).stimulus := by
  obtain ⟨t, hstep, hregs, hrest⟩ := step_transitionOf h (by simp [hst])
  rw [hst, transitionOf_idle_count] at hregs
  obtain ⟨hcount, hpd, hstate, -, hrb⟩ := hregs
  exact ⟨t, hstep, ⟨hcount, hpd, hstate, hrb⟩, hrest⟩

/-- Settles O32: the count button's row is selected whatever the reset sample. -/
theorem bothPressedCountWins : Obligations.BothPressedCountWins := by
  intro s h hst
  obtain ⟨t, hstep, ⟨hcount, -, hstate, hrb⟩, -⟩ := step_idle_count h hst
  exact ⟨t, hstep, hcount, hstate, hrb⟩

/-! ### The sample that a state ignores (O33) -/

/-- An event neither reads nor writes the samples. -/
theorem applyEvent_withSamples (e : Event) (rb cb : Level) (s : State) :
    applyEvent e (withSamples rb cb s) = withSamples rb cb (applyEvent e s) := by
  cases e with
  | write l v => cases l <;> rfl
  | delay d => rfl

theorem runEvents_withSamples (es : List Event) (rb cb : Level) (s : State) :
    runEvents es (withSamples rb cb s) = withSamples rb cb (runEvents es s) := by
  induction es generalizing s with
  | nil => rfl
  | cons e rest ih => simp only [runEvents, applyEvent_withSamples, ih]

/-- The `RENDER` of the count neither reads nor writes the samples (R110, R130). -/
theorem renderCount_withSamples (rb cb : Level) {u : State} (hu : u.fault = .none) :
    renderCount (withSamples rb cb u) = withSamples rb cb (renderCount u) := by
  rw [renderCount_eq u hu, renderCount_eq (withSamples rb cb u) hu, ← runEvents_withSamples]
  rfl

section
variable {s u t : State} (hu : u.fault = s.fault) (h : whileRunning s (renderCount u) = .next t)
include hu h

/-- A row whose transition differs in the reset sample alone ends in a state that differs in that sample alone. -/
theorem whileRunning_renderCount_rb (y : Level) :
    whileRunning s (renderCount { u with rb := y }) = .next { t with rb := y } := by
  obtain ⟨hf, rfl⟩ := whileRunning_next h
  have hcb : (renderCount u).cb = u.cb := by simp [renderCount_eq u (hu.trans hf)]
  rw [whileRunning_running hf]
  exact congrArg _ ((renderCount_withSamples y u.cb (hu.trans hf)).trans (by rw [← hcb]; rfl))

/-- The same of the count sample. -/
theorem whileRunning_renderCount_cb (y : Level) :
    whileRunning s (renderCount { u with cb := y }) = .next { t with cb := y } := by
  obtain ⟨hf, rfl⟩ := whileRunning_next h
  have hrb : (renderCount u).rb = u.rb := by simp [renderCount_eq u (hu.trans hf)]
  rw [whileRunning_running hf]
  exact congrArg _ ((renderCount_withSamples u.rb y (hu.trans hf)).trans (by rw [← hrb]; rfl))

end

/-- Settles O33: each of the five transitions differs in the ignored sample alone. -/
theorem ignoredSamplesDoNotMatter : Obligations.IgnoredSamplesDoNotMatter := by
  intro s t x y
  exact ⟨fun h => whileRunning_renderCount_rb (u := onIdleCount x s) rfl h y,
    fun h => whileRunning_renderCount_rb (u := onCountingRelease x s) rfl h y,
    fun h => whileRunning_renderCount_rb (u := onCountingHold x s) rfl h y,
    fun h => whileRunning_renderCount_cb (u := onResettingRelease x s) rfl h y,
    fun h => whileRunning_renderCount_cb (u := onResettingHold x s) rfl h y⟩

/-! ### The graph of `STATE` (O38) -/

/-- An edge of the graph of `STATE` (R139, R146), from a named state. -/
def Edge (a b : FsmState) : Prop :=
  (a = .idle → b ≠ .reserved) ∧ (a = .counting → b = .counting ∨ b = .idle) ∧
  (a = .resetting → b = .resetting ∨ b = .idle)

/-- To stay in a state is an edge. -/
theorem edge_refl (a : FsmState) : Edge a a := by
  cases a <;> simp [Edge]

/-- Each of the seven transitions follows an edge. -/
theorem transitionOf_edge (rb cb : Level) (s : State) : Edge s.state (transitionOf s.state rb cb s).state := by
  cases hst : s.state with
  | idle =>
    cases cb with
    | true => rw [transitionOf_idle_count]; simp [Edge, onIdleCount]
    | false => cases rb <;> simp [Edge, transitionOf, onIdleNone, onIdleReset, hst]
  | counting =>
    cases cb with
    | true => rw [transitionOf_counting_hold]; simp [Edge, onCountingHold, hst]
    | false => rw [transitionOf_counting_release]; simp [Edge, onCountingRelease]
  | resetting =>
    cases rb with
    | true => rw [transitionOf_resetting_hold]; simp [Edge, onResettingHold, hst]
    | false => rw [transitionOf_resetting_release]; simp [Edge, onResettingRelease]
  | reserved => simp [Edge]

/-- The row of a transition follows an edge. -/
theorem exec_selectIteration_edge {s t : State} {rb cb : Level}
    (h : exec (selectIteration s.state rb cb) s = .next t) : Edge s.state t.state := by
  obtain ⟨hf, hr, rfl⟩ := exec_next h
  have hnamed : s.state ≠ .reserved := by
    rw [isReserved_selectIteration] at hr
    exact of_decide_eq_false hr
  rw [effect_selectIteration rb cb s hnamed, renderCount_eq _ ((transitionOf_fault _ rb cb s).trans hf)]
  simpa using transitionOf_edge rb cb s

/-- A step before an iteration's transition makes it with the samples taken (log entry 10). -/
theorem step_transition {s : State} (hf : s.fault = .none) (hq : s.seq = .transition) :
    step s = exec (selectIteration s.state s.rb s.cb) (withSeq .start s) := by
  rw [← ticksMakeTheStep s, operationByTicks_eq_finishAfter, tick_transition hf hq]
  exact finishAfter_begin _ (s := withSeq .start s) hf rfl

/-- A step between the two samples takes the second one and makes the transition (log entry 10). -/
theorem step_sampleReset {s : State} (hf : s.fault = .none) (hq : s.seq = .sampleReset) :
    step s = step (withSeq .transition (sampleReset s)) := by
  have hinside : (withSeq .transition (sampleReset s)).seq ≠ .start := by simp
  rw [← ticksMakeTheStep s, operationByTicks_eq_finishAfter, tick_sampleReset hf hq]
  exact (step_inside (s := withSeq .transition (sampleReset s)) hf hinside).symm

/-- Past the transition no tick of the operation writes `STATE`. -/
theorem settle_past_state {k : Nat} {s t : State} (hs : PastTransition s.seq) (h : settle k s = .next t) :
    t.state = s.state := by
  refine (settle_keeps (P := fun v => PastTransition v.seq ∧ v.state = s.state) ?_ k ⟨hs, rfl⟩ h).2
  intro u v hq ⟨hpast, hu⟩ ht
  obtain ⟨-, hc⟩ := tick_cases ht
  cases hc with
  | event e => exact ⟨pastTransition_seqNext _ hpast.1, by simpa using hu⟩
  | countSample hstart => exact absurd hstart hq
  | resetSample hsample => exact absurd hsample hpast.1
  | call _ _ _ _ hstart => exact absurd hstart hq
  | transition _ htrans => exact absurd htrans hpast.2

/-- The rest of a frame or of a `RENDER` leaves `STATE` alone; a transition still to come follows an edge. -/
theorem step_inside_edge {s t : State} (hq : s.seq ≠ .start) (h : step s = .next t) : Edge s.state t.state := by
  have hf : s.fault = .none := (step_cases h).1
  by_cases htrans : s.seq = .transition
  · rw [step_transition hf htrans] at h
    exact exec_selectIteration_edge (s := withSeq .start s) h
  by_cases hsample : s.seq = .sampleReset
  · rw [step_sampleReset hf hsample, step_transition (s := withSeq .transition (sampleReset s)) hf rfl] at h
    exact exec_selectIteration_edge (s := withSeq .start (sampleReset s)) h
  · rw [step_inside hf hq] at h
    rw [settle_past_state ⟨hsample, htrans⟩ h]
    exact edge_refl s.state

/-- Settles O38: a directly driven operation leaves `STATE` alone, and an iteration follows an edge of the graph. -/
theorem noEdgeBetweenHeldStates : Obligations.NoEdgeBetweenHeldStates := by
  intro s t h
  obtain ⟨-, ⟨c, rest, i, -, -, hd, hexec⟩ | ⟨-, -, hexec⟩ | ⟨hq, -⟩⟩ := step_cases h
  · obtain ⟨-, hregs, -⟩ := eachOperationWritesOnlyItsOwn i _ t hexec
    obtain ⟨-, -, hstate, -⟩ := hregs (decode_call_not_iteration hd)
    rw [hstate]
    exact edge_refl s.state
  · rw [← arrive_state s] at hexec ⊢
    exact exec_selectIteration_edge hexec
  · exact step_inside_edge hq h

/-! ### Runs of listed samples -/

theorem iterationStarts_listed {s : State} {x : Sample} {rest : List Sample} (h : Ready s)
    (hx : s.stimulus = x :: rest) : IterationStarts s x.rb x.cb ∧ (arrive s).stimulus = rest := by
  obtain ⟨hf, hq, hc⟩ := h
  rw [IterationStarts, arrive_listed hx]
  exact ⟨⟨hf, hq, hc, rfl, rfl⟩, rfl⟩

theorem runSteps_add {a : Nat} {s t : State} (h : runSteps a s = .next t) (b : Nat) :
    runSteps (a + b) s = runSteps b t := by
  induction a generalizing s with
  | zero => cases h; rw [Nat.zero_add]
  | succ a ih =>
    rw [Nat.succ_add]
    rw [runSteps] at h ⊢
    cases hs : step s with
    | next u => rw [hs] at h; exact ih h
    | fault e => rw [hs] at h; cases h
    | refused e => rw [hs] at h; cases h

theorem runSteps_one {s t : State} (h : step s = .next t) : runSteps 1 s = .next t := runSteps_succ h 0

/-- What every iteration with a sample of a kind carries from one index to the next, a list of such samples carries
along its length. -/
theorem runSteps_listed {P : Nat → State → Prop} {Q : Sample → Prop}
    (hP : ∀ k s x rest, P k s → Q x → s.stimulus = x :: rest → ∃ t, step s = .next t ∧ P (k + 1) t ∧ t.stimulus = rest)
    (xs : List Sample) (hQ : ∀ x ∈ xs, Q x) {k : Nat} {s : State} {rest : List Sample} (hs : P k s)
    (hx : s.stimulus = xs ++ rest) :
    ∃ t, runSteps xs.length s = .next t ∧ P (k + xs.length) t ∧ t.stimulus = rest := by
  induction xs generalizing k s with
  | nil => exact ⟨s, rfl, hs, hx⟩
  | cons x xs ih =>
    obtain ⟨u, hstep, hu, hux⟩ := hP k s x (xs ++ rest) hs (hQ x List.mem_cons_self) hx
    obtain ⟨t, hrun, ht, htx⟩ := ih (fun y hy => hQ y (List.mem_cons_of_mem x hy)) hu hux
    refine ⟨t, (runSteps_succ hstep xs.length).trans hrun, ?_, htx⟩
    rwa [List.length_cons, Nat.add_comm xs.length 1, ← Nat.add_assoc]

/-! ### The hold law (O35, O36) -/

/-- The count button has been held through `k` iterations since the press took the count to `c` (R136, R141). -/
structure Held (c k : Nat) (s : State) : Prop where
  ready : Ready s
  hardware : ThisHardware s.params
  state : s.state = .counting
  pd : s.pd = k
  count : s.count = c + (k - 29)

/-- The press: one count at once (R132, R133). -/
theorem step_press {s : State} {x : Sample} {rest : List Sample} (h : Ready s) (hp : ThisHardware s.params)
    (hst : s.state = .idle) (hcb : x.cb = true) (hx : s.stimulus = x :: rest) :
    ∃ t, step s = .next t ∧ Held (s.count + 1) 0 t ∧ t.stimulus = rest := by
  obtain ⟨hstart, hrest⟩ := iterationStarts_listed h hx
  rw [hcb] at hstart
  obtain ⟨t, hstep, ⟨hcount, hpd, hstate, -⟩, hready, hparams, hstim⟩ := step_idle_count hstart hst
  exact ⟨t, hstep, ⟨hready, hparams ▸ hp, hstate, hpd, hcount⟩, hstim.trans hrest⟩

/-- One more iteration of the hold: from the thirtieth on the count grows (R136). -/
theorem step_held {c k : Nat} {s : State} {x : Sample} {rest : List Sample} (h : Held c k s) (hcb : x.cb = true)
    (hx : s.stimulus = x :: rest) : ∃ t, step s = .next t ∧ Held c (k + 1) t ∧ t.stimulus = rest := by
  obtain ⟨hready, hp, hst, hpd, hcount⟩ := h
  obtain ⟨hstart, hrest⟩ := iterationStarts_listed hready hx
  obtain ⟨t, hstep, hregs, htready, htparams, htstim⟩ := step_transitionOf hstart (by simp [hst])
  rw [hst, hcb, transitionOf_counting_hold] at hregs
  obtain ⟨htcount, htpd, htstate, -⟩ := hregs
  obtain ⟨-, -, hthreshold, -⟩ := id hp
  refine ⟨t, hstep, ⟨htready, htparams ▸ hp, htstate.trans hst, htpd.trans (congrArg Nat.succ hpd), ?_⟩,
    htstim.trans hrest⟩
  rw [htcount, onCountingHold_count, hthreshold, hpd, hcount]
  split <;> omega

/-- The release: `STATE` alone is written (R135). -/
theorem step_release {c k : Nat} {s : State} {x : Sample} {rest : List Sample} (h : Held c k s) (hcb : x.cb = false)
    (hx : s.stimulus = x :: rest) :
    ∃ t, step s = .next t ∧ t.count = c + (k - 29) ∧ t.pd = k ∧ t.state = .idle ∧ t.fault = .none ∧
      t.stimulus = rest := by
  obtain ⟨hready, -, hst, hpd, hcount⟩ := h
  obtain ⟨hstart, hrest⟩ := iterationStarts_listed hready hx
  obtain ⟨t, hstep, hregs, ⟨htf, -⟩, -, htstim⟩ := step_transitionOf hstart (by simp [hst])
  rw [hst, hcb, transitionOf_counting_release] at hregs
  obtain ⟨htcount, htpd, htstate, -⟩ := hregs
  exact ⟨t, hstep, htcount.trans hcount, htpd.trans hpd, htstate, htf, htstim.trans hrest⟩

/-- Settles O35: the press, the hold by induction on its samples, the release. -/
theorem holdLaw : Obligations.HoldLaw := by
  intro s press release rest H hp hf hq hc hst hlen hcb hrelease hstim
  match press, hlen with
  | x :: hold, hlen =>
    have hH : hold.length = H := Nat.succ.inj hlen
    have hpressed : ∀ y ∈ hold, y.cb = true := fun y hy => hcb y (List.mem_cons_of_mem x hy)
    obtain ⟨u, hstepu, hu, hux⟩ := step_press ⟨hf, hq, hc⟩ hp hst (hcb x List.mem_cons_self) hstim
    obtain ⟨v, hrunv, hv, hvx⟩ :=
      runSteps_listed (fun _ _ _ _ h hy hx => step_held h hy hx) hold hpressed hu hux
    obtain ⟨t, hstept, ht⟩ := step_release hv hrelease hvx
    rw [Nat.zero_add, hH] at ht
    refine ⟨t, ?_, ht⟩
    calc runSteps (H + 2) s
        = runSteps (H + 1) u := runSteps_succ hstepu (H + 1)
      _ = runSteps 1 v := runSteps_add (hH ▸ hrunv) 1
      _ = .next t := runSteps_one hstept

/-- A press of the count button alone, held through `H` further iterations, in numbers (R141). -/
theorem runSteps_hold {s : State} (h : Ready s) (hp : ThisHardware s.params) (hst : s.state = .idle) (H : Nat)
    (rest : List Sample) :
    ∃ t, runSteps (H + 2) { s with
        stimulus := List.replicate (H + 1) ⟨false, true⟩ ++ ⟨false, false⟩ :: rest } = .next t ∧
      t.count = s.count + 1 + (H - 29) := by
  obtain ⟨hf, hq, hc⟩ := h
  have hpressed : ∀ x ∈ List.replicate (H + 1) (⟨false, true⟩ : Sample), x.cb = true := fun x hx => by
    rw [List.eq_of_mem_replicate hx]
  obtain ⟨t, hrun, hcount, -⟩ := holdLaw { s with
    stimulus := List.replicate (H + 1) ⟨false, true⟩ ++ ⟨false, false⟩ :: rest } _ ⟨false, false⟩ rest H hp hf hq hc hst
    List.length_replicate hpressed rfl rfl
  exact ⟨t, hrun, hcount⟩

/-- Settles O36: the hold law, and its numbers on the two sides of 30. -/
theorem longerHoldCountsMore : Obligations.LongerHoldCountsMore := by
  intro s H H' rest hp hf hq hc hst
  obtain ⟨t, hrun, hcount⟩ := runSteps_hold ⟨hf, hq, hc⟩ hp hst H rest
  obtain ⟨t', hrun', hcount'⟩ := runSteps_hold ⟨hf, hq, hc⟩ hp hst H' rest
  exact ⟨t, t', hrun, hrun', by omega, by omega, by omega⟩

/-! ### The reset law (O37) -/

/-- The reset button is being held: the count is 0 (R138, R144). -/
structure Zeroed (s : State) : Prop where
  ready : Ready s
  state : s.state = .resetting
  count : s.count = 0

/-- The press of reset alone zeroes the count at once (R134). -/
theorem step_reset {s : State} {rest : List Sample} (h : Ready s) (hst : s.state = .idle)
    (hx : s.stimulus = ⟨true, false⟩ :: rest) : ∃ t, step s = .next t ∧ Zeroed t ∧ t.stimulus = rest := by
  obtain ⟨hstart, hrest⟩ := iterationStarts_listed h hx
  obtain ⟨t, hstep, hregs, hready, -, hstim⟩ := step_transitionOf hstart (by simp [hst])
  rw [hst] at hregs
  obtain ⟨hcount, -, hstate, -⟩ := hregs
  exact ⟨t, hstep, ⟨hready, hstate, hcount⟩, hstim.trans hrest⟩

/-- While reset is held the count stays 0, whatever the count button does (R138). -/
theorem step_zeroed {s : State} {x : Sample} {rest : List Sample} (h : Zeroed s) (hrb : x.rb = true)
    (hx : s.stimulus = x :: rest) : ∃ t, step s = .next t ∧ Zeroed t ∧ t.stimulus = rest := by
  obtain ⟨hready, hst, -⟩ := h
  obtain ⟨hstart, hrest⟩ := iterationStarts_listed hready hx
  obtain ⟨t, hstep, hregs, htready, -, hstim⟩ := step_transitionOf hstart (by simp [hst])
  rw [hst, hrb, transitionOf_resetting_hold] at hregs
  obtain ⟨hcount, -, hstate, -⟩ := hregs
  exact ⟨t, hstep, ⟨htready, hstate.trans hst, hcount⟩, hstim.trans hrest⟩

/-- The release of reset leaves the count 0 (R137). -/
theorem step_zeroed_release {s : State} {x : Sample} {rest : List Sample} (h : Zeroed s) (hrb : x.rb = false)
    (hx : s.stimulus = x :: rest) :
    ∃ t, step s = .next t ∧ t.count = 0 ∧ t.state = .idle ∧ t.stimulus = rest := by
  obtain ⟨hready, hst, hzero⟩ := h
  obtain ⟨hstart, hrest⟩ := iterationStarts_listed hready hx
  obtain ⟨t, hstep, hregs, -, -, hstim⟩ := step_transitionOf hstart (by simp [hst])
  rw [hst, hrb, transitionOf_resetting_release] at hregs
  obtain ⟨hcount, -, hstate, -⟩ := hregs
  exact ⟨t, hstep, hcount.trans hzero, hstate, hstim.trans hrest⟩

/-- A press of reset, through each list of samples that hold it (R144). -/
theorem runSteps_zeroed {s : State} (h : Ready s) (hst : s.state = .idle) (hold : List Sample)
    (hrb : ∀ x ∈ hold, x.rb = true) {rest : List Sample} (hx : s.stimulus = ⟨true, false⟩ :: (hold ++ rest)) :
    ∃ t, runSteps (hold.length + 1) s = .next t ∧ Zeroed t ∧ t.stimulus = rest := by
  obtain ⟨u, hstep, hu, hux⟩ := step_reset h hst hx
  obtain ⟨t, hrun, ht⟩ :=
    runSteps_listed (P := fun _ => Zeroed) (k := 0) (fun _ _ _ _ h hy hx => step_zeroed h hy hx) hold hrb hu hux
  exact ⟨t, (runSteps_succ hstep hold.length).trans hrun, ht⟩

/-- Settles O37: after each of its iterations a press is a shorter one, and after the last comes the release. -/
theorem resetLaw : Obligations.ResetLaw := by
  intro s hold release rest hf hq hc hst hrb hrelease hstim
  refine ⟨fun k hk => ?_, ?_⟩
  · have hparts : s.stimulus = ⟨true, false⟩ :: (hold.take k ++ (hold.drop k ++ release :: rest)) := by
      rw [← List.append_assoc, List.take_append_drop, hstim]
    obtain ⟨t, hrun, ht, -⟩ :=
      runSteps_zeroed ⟨hf, hq, hc⟩ hst (hold.take k) (fun x hx => hrb x (List.mem_of_mem_take hx)) hparts
    rw [List.length_take_of_le hk] at hrun
    exact ⟨t, hrun, ht.count, ht.state⟩
  · obtain ⟨u, hrun, hu, hux⟩ := runSteps_zeroed ⟨hf, hq, hc⟩ hst hold hrb hstim
    obtain ⟨t, hstep, ht⟩ := step_zeroed_release hu hrelease hux
    exact ⟨t, (runSteps_add hrun 1).trans (runSteps_one hstep), ht⟩

end Sys2Proof.Machine
end

section
/-! SUPPORT. Family 60_exceptions.md: two directly driven operations, the first of which takes a fault. -/

namespace Sys2Proof.Machine

/-! ### The first fault wins (O48) -/

/-- The `E4` word of a digit out of range carries one of the two rows that take its fault (R62, R71). -/
theorem decode_e4_outOfRange (c : OrderCodes) {d : Nat} (hlo : 10 ≤ d) (hhi : d < 16) :
    decode c (.e4 d) = .ok (.encodeRangeA d) ∨ decode c (.e4 d) = .ok (.encodeRangeB d) := by
  by_cases hd : d < 12
  · exact .inl (decodeOfEncode c (.encodeRangeA d) ((wellFormed_encodeRangeA_iff c d).2 (by omega)))
  · exact .inr (decodeOfEncode c (.encodeRangeB d) ((wellFormed_encodeRangeB_iff c d).2 (by omega)))

/-- A directly driven `ENCODE` of a digit out of range takes the digit-range fault, and writes nothing else but the
queue it came from (R103, R163). -/
theorem step_encode_outOfRange {s : State} {d : Nat} {rest : List Call} (hf : s.fault = .none) (hq : s.seq = .start)
    (hlo : 10 ≤ d) (hhi : d < 16) (hc : s.calls = .encode d :: rest) :
    step s = .next { s with calls := rest, fault := .digitRange d } := by
  obtain ⟨hdriven, -⟩ := stepRunsDecodedInstruction s hf hq
  obtain ⟨hA, hB, -⟩ := digitOutOfRangeHalts d { s with calls := rest } hlo hf
  rcases decode_e4_outOfRange s.params.codes hlo hhi with hrow | hrow
  · exact (hdriven _ _ _ hc hrow).trans hA
  · exact (hdriven _ _ _ hc hrow).trans hB

/-- A run whose next step finds the block halted ends with the halt. -/
theorem runSteps_halted {s : State} {e : Fault} (h : HaltOf s.fault e) (k : Nat) : runSteps (k + 1) s = .fault e := by
  rw [runSteps, step_halted h]

/-- Settles O48: the first step takes the fault with the second operation still in the queue, and the second step
finds the block halted. -/
theorem firstFaultWins : Obligations.FirstFaultWins := by
  intro s d w rest hf hq hlo hhi hc
  have hstep := step_encode_outOfRange hf hq hlo hhi hc
  exact ⟨_, runSteps_one hstep, rfl, rfl, (runSteps_succ hstep 1).trans (runSteps_halted (.digitRange d) 0)⟩

end Sys2Proof.Machine
end

section
/-! SUPPORT. Family 70_reset_and_hazards.md: `DATA` around each clock pulse of a frame, and the first iteration after
reset. -/

namespace Sys2Proof.Machine

/-! ### `DATA` around each clock pulse (O14) -/

/-- A frame is the cell of its first level, then the frame of the rest (R82). -/
theorem frameOf_cons (b : Level) (bits : List Level) : frameOf (b :: bits) = bitCell b ++ frameOf bits := rfl

theorem bitCell_length (b : Level) : (bitCell b).length = 3 := rfl

/-- A frame cut inside a cell is the cells before it and the first events of its own (R82). -/
theorem frameOf_take_cell {bits : List Level} {j m : Nat} (hj : j < bits.length) (hm : m ≤ 3) :
    (frameOf bits).take (3 * j + m) =
      (bits.take j).flatMap bitCell ++ (bitCell (bits.getD j false)).take m := by
  induction bits generalizing j with
  | nil => exact absurd hj (Nat.not_lt_zero j)
  | cons b rest ih =>
    rw [frameOf_cons]
    cases j with
    | zero =>
      rw [Nat.mul_zero, Nat.zero_add]
      exact List.take_append_of_le_length hm
    | succ j =>
      have hlen : 3 * (j + 1) + m = (bitCell b).length + (3 * j + m) := by
        rw [bitCell_length]
        omega
      rw [hlen, List.take_length_add_append, ih (Nat.lt_of_succ_lt_succ hj), ← List.append_assoc]
      rfl

/-- From its first event on a cell holds `DATA` at its level; the second raises the clock and the third lets it fall
(R68, R202). -/
theorem runEvents_bitCell_take (b : Level) (s : State) {m : Nat} (hlo : 1 ≤ m) (hhi : m ≤ 3) :
    (runEvents ((bitCell b).take m) s).data = b ∧
    (m = 2 → (runEvents ((bitCell b).take m) s).clock = true) ∧
    (m = 3 → (runEvents ((bitCell b).take m) s).clock = false) := by
  match m with
  | 0 => omega
  | 1 => exact ⟨rfl, fun h => absurd h (by decide), fun h => absurd h (by decide)⟩
  | 2 => exact ⟨rfl, fun _ => rfl, fun h => absurd h (by decide)⟩
  | 3 => exact ⟨rfl, fun h => absurd h (by decide), fun _ => rfl⟩
  | m + 4 => omega

theorem sentSequence_length (bo : BitOrder) (p : Pattern) : (sentSequence bo p).length = 8 := by
  cases bo <;> rfl

/-- Settles O14: the events so far end inside cell `j`, and the cell's own events decide `DATA` and the clock, whatever the
cells before it left. -/
theorem dataSteadyAroundClock : Obligations.DataSteadyAroundClock := by
  intro bo p s j m hj hlo hhi
  have hcell : j < (sentSequence bo p).length := (sentSequence_length bo p).symm ▸ hj
  rw [frameOf_take_cell hcell hhi, runEvents_append]
  exact runEvents_bitCell_take _ _ hlo hhi

/-! ### The first iteration after reset (O53) -/

/-- A `RENDER` of this hardware's sizes with clock and latch at rest leaves the last pattern in both stages of the
external register, and shows the pattern of each digit, whatever the register held (R112, R119). -/
theorem exec_renderOf_shown (bo : BitOrder) (n : Nat) {s : State} (hp : FullSize s.params)
    (hcodes : s.params.codes.distinct) (hf : s.fault = .none) (hc : s.clock = false) (hl : s.latch = false) :
    ∃ t, exec (renderOf bo n) s = .next t ∧ t.count = s.count ∧ t.state = s.state ∧
      t.sr = onPins bo (patternAt s.params n .thousands) ∧ t.q = onPins bo (patternAt s.params n .thousands) ∧
      t.trace = s.trace ++ renderTrace bo s.params n ∧
      shownBy (probeOf s) (renderTrace bo s.params n) =
        Position.all.map (fun i => (i, onPins bo (patternAt s.params n i))) := by
  obtain ⟨-, hresult⟩ := renderResult
  refine ⟨_, hresult bo n s hp hcodes hf, rfl, rfl, rfl, rfl, rfl, ?_⟩
  rw [renderTrace_eq, shownBy_render bo n hp hc hl]

/-- The state after power-on with a first sample listed (R28, R193). -/
abbrev powerOn (x : Sample) (rest : List Sample) : State := { State.reset with stimulus := x :: rest }

theorem ready_powerOn (x : Sample) (rest : List Sample) : Ready (powerOn x rest) := ⟨rfl, rfl, rfl⟩

theorem resetCodes_distinct : State.reset.params.codes.distinct := by decide

/-- The first iteration with no button pressed is a `RENDER` of 0 (R131, R193). -/
theorem step_powerOn_none (rest : List Sample) :
    step (powerOn ⟨false, false⟩ rest) =
      exec (renderOf .lsbFirst 0) (onIdleNone (arrive (powerOn ⟨false, false⟩ rest))) := by
  obtain ⟨-, hrow, hexec⟩ := idleNoneKeepsCount
  obtain ⟨hstart, -⟩ := iterationStarts_listed (ready_powerOn ⟨false, false⟩ rest) rfl
  exact (hrow _ hstart rfl).trans (hexec _ rfl).1

/-- The first iteration with the count button held is a `RENDER` of 1, counted at once (R132, R193). -/
theorem step_powerOn_count (rest : List Sample) :
    step (powerOn ⟨false, true⟩ rest) =
      exec (renderOf .lsbFirst 1) (onIdleCount false (arrive (powerOn ⟨false, true⟩ rest))) := by
  obtain ⟨-, -, hrow, hexec⟩ := idleCountIncrements
  obtain ⟨hstart, -⟩ := iterationStarts_listed (ready_powerOn ⟨false, true⟩ rest) rfl
  exact (hrow _ _ hstart rfl).trans (hexec _ _ rfl).1

/-- The pins at each position for the count 0: the entry 0 reversed, four times (R101, R104; V63). -/
theorem pins_zero :
    Position.all.map (fun i => (i, onPins .lsbFirst (patternAt State.reset.params 0 i))) =
      [(.ones, 0x3F#8), (.tens, 0x3F#8), (.hundreds, 0x3F#8), (.thousands, 0x3F#8)] := by
  decide

/-- The pins at each position for the count 1: the entry 1 reversed at the ones, the entry 0 elsewhere (V64). -/
theorem pins_one :
    Position.all.map (fun i => (i, onPins .lsbFirst (patternAt State.reset.params 1 i))) =
      [(.ones, 0x06#8), (.tens, 0x3F#8), (.hundreds, 0x3F#8), (.thousands, 0x3F#8)] := by
  decide

/-- Settles O53: each first iteration is one `RENDER` from the resting lines of power-on. -/
theorem firstIterationAfterReset : Obligations.FirstIterationAfterReset := by
  intro rest
  constructor
  · rw [step_powerOn_none rest]
    obtain ⟨t, ht, hcount, hstate, hsr, hq, htrace, hshown⟩ := exec_renderOf_shown .lsbFirst 0
      (s := onIdleNone (arrive (powerOn ⟨false, false⟩ rest))) ⟨rfl, rfl⟩ resetCodes_distinct rfl rfl rfl
    have hpins : onPins .lsbFirst (patternAt State.reset.params 0 .thousands) = 0x3F#8 := by decide
    exact ⟨t, ht, hcount, hstate, hsr.trans hpins, hq.trans hpins, htrace,
      (congrArg _ htrace).trans (hshown.trans pins_zero)⟩
  · rw [step_powerOn_count rest]
    obtain ⟨t, ht, hcount, hstate, -, -, htrace, hshown⟩ := exec_renderOf_shown .lsbFirst 1
      (s := onIdleCount false (arrive (powerOn ⟨false, true⟩ rest))) ⟨rfl, rfl⟩ resetCodes_distinct rfl rfl rfl
    exact ⟨t, ht, hcount, hstate, (congrArg _ htrace).trans (hshown.trans pins_one)⟩

end Sys2Proof.Machine
end
